-- ==== Sys2Proof/Word.lean ====
section
/-! DEFINITION. The bit-vector types of the block (spec/00_scope.md R6, R11): state words and buses, command words,
32-bit operands, bytes, and the 128-bit seed. Bit 0 is the least significant bit of every one of them. -/

namespace Sys2Proof

/-- A 64-bit word: a state word, an operand or result bus, an output of `draw()` (R6). -/
abbrev Word := BitVec 64

/-- A 32-bit operand or result (R66, R67). -/
abbrev Half := BitVec 32

/-- A 32-bit command word `CMD` (R61). -/
abbrev CmdWord := BitVec 32

/-- A 128-bit value: the seed, a mixed seed, or a full product (R6, R12). -/
abbrev Wide := BitVec 128

/-- One byte of FILL's stream (R41). -/
abbrev Byte := BitVec 8

end Sys2Proof
end

