-- ==== Sys2Proof/Syntax.lean ====
section
/-! DEFINITION. The commands of `RSXM-CMD` version 1, one constructor per row of the opcode map (spec/30_encoding.md R63).
A command word has no register number and no immediate: every operand arrives on `OPA` or `OPB` (R61), so no constructor
has an argument. `NEXT` is another name of `U64` (R71) and has no constructor. -/

namespace Sys2Proof

/-- The 18 commands of R63. -/
inductive Instr where
  /-- 0x01, R81: construct the state from a 128-bit seed. -/
  | seed
  /-- 0x02, R91: construct the state from two given words. -/
  | loadstate
  /-- 0x03, R92: read the status fields. -/
  | rdstatus
  /-- 0x10, R111. -/
  | bool
  /-- 0x11, R112. -/
  | bernoulli
  /-- 0x12, R113; also written NEXT (R71). -/
  | u64
  /-- 0x13, R114. -/
  | i64
  /-- 0x14, R115. -/
  | u32
  /-- 0x15, R116. -/
  | i32
  /-- 0x16, R117. -/
  | boundedU32
  /-- 0x17, R118. -/
  | rangeU64
  /-- 0x18, R119. -/
  | rangeI64
  /-- 0x19, R120. -/
  | rangeU32
  /-- 0x1A, R121. -/
  | rangeI32
  /-- 0x1B, R122. -/
  | open01F64
  /-- 0x1C, R123. -/
  | open01F32
  /-- 0x20, R140. -/
  | split
  /-- 0x21, R145. -/
  | fill
  deriving DecidableEq, Repr

/-- A value command: one that calls `draw()` or may call it, opcodes 0x10 to 0x21 (spec/00_scope.md, glossary; R90). -/
def Instr.isValue : Instr → Bool
  | .seed => false
  | .loadstate => false
  | .rdstatus => false
  | .bool => true
  | .bernoulli => true
  | .u64 => true
  | .i64 => true
  | .u32 => true
  | .i32 => true
  | .boundedU32 => true
  | .rangeU64 => true
  | .rangeI64 => true
  | .rangeU32 => true
  | .rangeI32 => true
  | .open01F64 => true
  | .open01F32 => true
  | .split => true
  | .fill => true

end Sys2Proof
end

