-- ==== Sys2Proof/WellFormed.lean ====
section
/-! DEFINITION. Which command words are legal (spec/30_encoding.md R62). An `Instr` has no field, so every value of it is
well-formed; what can be ill-formed is a command word, in two ways: a reserved bit is set, or the opcode is not listed. -/

namespace Sys2Proof

/-- `CMD[31:8]` must be zero (R61). -/
def reservedClear (cmd : CmdWord) : Bool := cmd.extractLsb' 8 24 == 0#24

/-- `CMD[7:0]` must be one of `{0x01, 0x02, 0x03, 0x10 .. 0x1C, 0x20, 0x21}` (R62). -/
def opcodeListed (cmd : CmdWord) : Bool :=
  let op := (cmd.extractLsb' 0 8).toNat
  (0x01 ≤ op && op ≤ 0x03) || (0x10 ≤ op && op ≤ 0x1C) || (0x20 ≤ op && op ≤ 0x21)

/-- `legal(CMD)` of R62. -/
def legal (cmd : CmdWord) : Bool := reservedClear cmd && opcodeListed cmd

end Sys2Proof
end

