-- ==== Sys2Proof/Decode.lean ====
section
/-! DEFINITION. The decoder and the encoder of the command word (spec/30_encoding.md R61 to R65). Decode reads `CMD` alone
(R62), is total on every 32-bit word, and rejects by name; the machine takes the ILLEGAL fault of R166 on either name. -/

namespace Sys2Proof

/-- Why a word is no command (R64). -/
inductive DecodeError where
  /-- A bit of `CMD[31:8]` is set. Safe: the machine takes the spec's ILLEGAL fault. -/
  | reservedBits
  /-- `CMD[7:0]` is not in the opcode map of R63. Safe: the machine takes the spec's ILLEGAL fault. -/
  | unknownOpcode
  deriving DecidableEq, Repr

/-- The opcode map of R63. -/
def decodeOpcode (op : Nat) : Option Instr :=
  match op with
  | 0x01 => some .seed
  | 0x02 => some .loadstate
  | 0x03 => some .rdstatus
  | 0x10 => some .bool
  | 0x11 => some .bernoulli
  | 0x12 => some .u64
  | 0x13 => some .i64
  | 0x14 => some .u32
  | 0x15 => some .i32
  | 0x16 => some .boundedU32
  | 0x17 => some .rangeU64
  | 0x18 => some .rangeI64
  | 0x19 => some .rangeU32
  | 0x1A => some .rangeI32
  | 0x1B => some .open01F64
  | 0x1C => some .open01F32
  | 0x20 => some .split
  | 0x21 => some .fill
  | _ => none

/-- The command a word stands for, or why it stands for none (R62). -/
def decode (cmd : CmdWord) : Except DecodeError Instr :=
  if cmd.extractLsb' 8 24 = 0#24 then
    match decodeOpcode (cmd.extractLsb' 0 8).toNat with
    | some i => .ok i
    | none => .error .unknownOpcode
  else .error .reservedBits

/-- The `OP` field of each command (R63). -/
def opcode : Instr → BitVec 8
  | .seed => 0x01#8
  | .loadstate => 0x02#8
  | .rdstatus => 0x03#8
  | .bool => 0x10#8
  | .bernoulli => 0x11#8
  | .u64 => 0x12#8
  | .i64 => 0x13#8
  | .u32 => 0x14#8
  | .i32 => 0x15#8
  | .boundedU32 => 0x16#8
  | .rangeU64 => 0x17#8
  | .rangeI64 => 0x18#8
  | .rangeU32 => 0x19#8
  | .rangeI32 => 0x1A#8
  | .open01F64 => 0x1B#8
  | .open01F32 => 0x1C#8
  | .split => 0x20#8
  | .fill => 0x21#8

/-- The command word of a command: `CMD = zext_32(OP)` (R72). -/
def encode (i : Instr) : CmdWord := (opcode i).setWidth 32

/-- The instruction read from `nbits` bits numbered as the opcode table numbers them, every bit above them zero. A command
word is 32 bits (R65), so nothing longer is one. -/
def decodeTableWord (nbits w : Nat) : Option Instr :=
  if nbits ≤ 32 then
    match decode (BitVec.ofNat 32 (w % 2 ^ nbits)) with
    | .ok i => some i
    | .error _ => none
  else none

end Sys2Proof
end

