-- ==== Sys2Proof/Machine/Arith.lean ====
section
/-! DEFINITION. The arithmetic notation of spec/00_scope.md R11 to R13 that Lean's BitVec does not name. `+`, `-`, `*` on
BitVec wrap (R12); `<<<` and `>>>` are the logical shifts of R13; `as_signed_N` is `BitVec.toInt` and `zext_N`, `trunc_N`
are `BitVec.setWidth`. -/

namespace Sys2Proof.Machine

/-- `mul128(a, b)`: the full 128-bit unsigned product (R12). -/
def mul128 (a b : Word) : Wide := a.setWidth 128 * b.setWidth 128

/-- `lo64(p) = p[63:0]` (R12). -/
def lo64 (p : Wide) : Word := p.extractLsb' 0 64

/-- `hi64(p) = p[127:64]`, the source's "high64" (R12). -/
def hi64 (p : Wide) : Word := p.extractLsb' 64 64

/-- `rotl64(v, k)` for 0 < k < 64 (R13). -/
def rotl64 (v : Word) (k : Nat) : Word := (v <<< k) ||| (v >>> (64 - k))

/-- Trailing zero bits of `n` seen as `width` bits; `width` where `n` has no bit set. -/
def trailingZeros : (width n : Nat) → Nat
  | 0, _ => 0
  | width + 1, n => if n % 2 = 1 then 0 else trailingZeros width (n / 2) + 1

/-- `ctz64(v)`, with `ctz64(0) = 64` (R13). -/
def ctz64 (v : Word) : Nat := trailingZeros 64 v.toNat

/-- `ctz32(v)`, with `ctz32(0) = 32` (R13). -/
def ctz32 (v : Half) : Nat := trailingZeros 32 v.toNat

end Sys2Proof.Machine
end

