-- ==== Sys2Proof/Machine/Float.lean ====
section
/-! DEFINITION. The floating-point readings of spec/00_scope.md R14. A finite value is held exactly, as an integer count of the
format's smallest step, so that the comparison is a comparison of integers; both zeros are the integer 0. Nothing is
rounded (R14). -/

namespace Sys2Proof.Machine

/-- A floating-point datum. `value` counts units of 2^-1074 for binary64 and of 2^-149 for binary32. -/
inductive FloatVal where
  | nan
  | inf (negative : Bool)
  | finite (value : Int)
  deriving DecidableEq, Repr

/-- The magnitude of a finite datum of biased exponent `e` and fraction `f` of `fbits` bits, in units of the smallest step:
a subnormal (`e = 0`) is `f`, a normal one has the hidden bit. -/
def magnitude (fbits e f : Nat) : Nat := if e = 0 then f else (2 ^ fbits + f) * 2 ^ (e - 1)

/-- The datum of a sign, a biased exponent and a fraction, where `emax` is the exponent field of all ones. -/
def floatOf (fbits emax : Nat) (sign : Bool) (e f : Nat) : FloatVal :=
  if e = emax then (if f = 0 then .inf sign else .nan)
  else .finite (if sign then -(magnitude fbits e f : Int) else (magnitude fbits e f : Int))

/-- `f64_from_bits(b)`: sign [63], exponent [62:52], fraction [51:0] (R14). -/
def f64FromBits (b : Word) : FloatVal :=
  floatOf 52 2047 (b.getLsbD 63) (b.extractLsb' 52 11).toNat (b.extractLsb' 0 52).toNat

/-- binary32: sign [31], exponent [30:23], fraction [22:0] (R14). -/
def f32FromBits (b : Half) : FloatVal :=
  floatOf 23 255 (b.getLsbD 31) (b.extractLsb' 23 8).toNat (b.extractLsb' 0 23).toNat

/-- `lt_f64(a, b)`: the ordered less-than, false when either is NaN and for `-0.0 < +0.0` (R14). -/
def ltF64 : FloatVal → FloatVal → Bool
  | .nan, _ => false
  | _, .nan => false
  | .inf a, .inf b => a && !b
  | .inf a, .finite _ => a
  | .finite _, .inf b => !b
  | .finite a, .finite b => decide (a < b)

end Sys2Proof.Machine
end

