-- ==== Sys2Proof/Config.lean ====
section
/-! DEFINITION. What an implementation fixes and the spec leaves as a parameter (spec/00_scope.md R7 to R10, R33): four
constants without a body, so that no proof can see what they are. `Machine/Params.lean` reads them and builds in
exactly what the spec says of each (odd, not zero, P2 of R86, at least 1), and nothing more. -/

namespace Sys2Proof.Config

/-- Bits [127:1] of `SEED_MULT` (R7). Bit 0 is 1, because the multiplier is odd; log entry 1. -/
opaque seedMultHigh : BitVec 127

/-- `SEED_FALLBACK` (R8), where this value is not zero; log entry 2. -/
opaque seedFallbackFree : Wide

/-- `ADVANCE` (R9), where P2 of R86 holds of it; log entry 3. -/
opaque advanceFree : Word → Word → Word × Word

/-- `N_INSTANCES` less one (R10: at least 1); log entry 4. -/
opaque extraInstances : Nat

end Sys2Proof.Config
end

