-- ==== Sys2Proof/Machine/State.lean ====
section
/-! DEFINITION. The state, as plain data (spec/10_state.md). One `Block` is one instance of the mixer, the record of R36;
`State` is the platform of R173: every instance, and the command interface of R60 (what the host will issue, the operand
buses of the command at hand, and what the host has received). The block has no memory, program counter, mode or
flags beyond these (R27 to R29, R40, R172). -/

namespace Sys2Proof.Machine

/-- `GeneratorState`: the two state words `X` and `Y` (R20). -/
structure GenState where
  x : Word
  y : Word
  deriving DecidableEq, Repr

/-- One instance (R36). `xy` is `some (X, Y)` exactly when `SEEDED = 1`; while `SEEDED = 0` the words hold no value and the
model gives them none (R23; log entry 8). -/
structure Block where
  /-- `X` and `Y`, where the instance holds a state. -/
  xy : Option GenState
  /-- `FAULT` (R24). -/
  fault : Bool
  /-- `FAULT_CODE` (R24). -/
  faultCode : BitVec 4
  deriving DecidableEq, Repr

/-- `SEEDED` (R23) is `xy.isSome` (R36). -/
def Block.seeded (b : Block) : Bool := b.xy.isSome

/-- An instance after reset (R35, R190). -/
def Block.reset : Block := { xy := none, fault := false, faultCode := 0#4 }

/-- The fault causes of R161. -/
inductive FaultKind where
  /-- Code 1: the command word is not legal (R166). -/
  | illegal
  /-- Code 2: a value command while `SEEDED = 0` (R165). -/
  | unseeded
  /-- Code 3: LOADSTATE of the all-zero state (R167). -/
  | zeroState
  deriving DecidableEq, Repr

/-- The `status` of a response (R68). -/
inductive Status where
  /-- 0: the command executed. -/
  | ok
  /-- 1 to 3: a new fault. -/
  | fault (kind : FaultKind)
  /-- 4: refused, because `FAULT = 1` (R168). -/
  | faulted
  deriving DecidableEq, Repr

/-- What a command returns to the host (R60). -/
structure Response where
  status : Status
  res0 : Word
  res1 : Word
  bytes : List Byte
  deriving DecidableEq, Repr

/-- The interface of the command at hand: the instance it was issued to and its two operand buses (R60, R173). -/
structure Port where
  target : Nat
  opa : Word
  opb : Word
  deriving DecidableEq, Repr

/-- What the host can do to the platform: issue a command to an instance (R60), or reset an instance (R190). -/
inductive HostEvent where
  | command (target : Nat) (cmd : CmdWord) (opa opb : Word)
  | reset (target : Nat)
  deriving DecidableEq, Repr

/-- The platform and its command interface. -/
structure State where
  /-- The instances, by number, rising, none at its reset value; an unlisted one is `Block.reset` (log entry 9). -/
  blocks : List (Nat × Block)
  /-- The command at hand (log entry 6). -/
  port : Port
  /-- What the host will do, in order (R48, R197; log entry 5). -/
  pending : List HostEvent
  /-- What the host has received and from which instance, newest first; no command reads it (R32; log entry 7). -/
  responses : List (Nat × Response)
  deriving DecidableEq, Repr

/-- Why the model stops. -/
inductive Fault where
  /-- Raised by `step` alone, where the next host event names an instance the platform does not hold (R10, R173; log
  entry 11). Safe: on the hardware no such command or reset can be issued. -/
  | noSuchInstance (target : Nat)
  deriving DecidableEq, Repr

/-- Why the model gives an instruction no meaning. -/
inductive Refusal where
  /-- Raised by `exec` for an instruction that has no meaning yet; safe. No arm raises it: every instruction has its meaning. -/
  | notModelled (mnemonic : String)
  deriving DecidableEq, Repr

/-- The platform after reset: every instance as R35 says, nothing issued, nothing returned. -/
def State.reset : State :=
  { blocks := [], port := { target := 0, opa := 0#64, opb := 0#64 }, pending := [], responses := [] }

end Sys2Proof.Machine
end

