-- ==== Sys2Proof/Machine/Params.lean ====
section
/-! DEFINITION. The parameters of spec/00_scope.md R7 to R10, read from Config with what the spec says of each built in, and
the reference values of R7, R8 and R87, which no command reads: the spec's test vectors are computed with them. -/

namespace Sys2Proof.Machine

/-- `SEED_MULT` (R7): any odd 128-bit value. -/
def seedMult : Wide := Config.seedMultHigh ++ 1#1

/-- Any value but zero is itself; zero, which R8 rules out, is not used. -/
def nonZero (v : Wide) : Wide := if v = 0#128 then 1#128 else v

/-- `SEED_FALLBACK` (R8): any 128-bit value but zero. -/
def seedFallback : Wide := nonZero Config.seedFallbackFree

/-- `f` on pairs, kept off the zero state as P2 of R86 says: a function that meets P2 is itself. -/
def keepNonZero (f : Word → Word → Word × Word) (g : GenState) : GenState :=
  if f g.x g.y = (0#64, 0#64) ∧ g ≠ ⟨0#64, 0#64⟩ then ⟨1#64, 0#64⟩ else ⟨(f g.x g.y).1, (f g.x g.y).2⟩

/-- `ADVANCE` (R9): any function of the pair that meets P1 and P2 of R86. -/
def advance (g : GenState) : GenState := keepNonZero Config.advanceFree g

/-- `N_INSTANCES` (R10): any number from 1 up. -/
def nInstances : Nat := Config.extraInstances + 1

/-- Whether the platform holds instance `k`, that is `k < nInstances` (instance 0 is there whatever the parameter is). -/
def instanceExists : Nat → Bool
  | 0 => true
  | k + 1 => decide (k < Config.extraInstances)

/-- The reference `SEED_MULT` of R7. -/
def refSeedMult : Wide := 0x9E3779B97F4A7C15F39CC0605CEDC835#128

/-- The reference `SEED_FALLBACK` of R8. -/
def refSeedFallback : Wide := 0x9E3779B97F4A7C15F39CC0605CEDC835#128

/-- `ADVANCE_ref` of R87. -/
def refAdvance (g : GenState) : GenState :=
  let t := g.y ^^^ g.x
  { x := rotl64 g.x 24 ^^^ t ^^^ (t <<< 16), y := rotl64 t 37 }

end Sys2Proof.Machine
end

