-- ==== Sys2Proof/Machine/Mixing.lean ====
section
/-! DEFINITION. The State/Mixing Core as pure functions (spec/40_mixing_core.md R80 to R88): the seed avalanche, the output
function and the step. Each takes the parameter it uses as an argument, so that the spec's vectors, which use the
reference parameters, can be held against it. -/

namespace Sys2Proof.Machine

/-- One round of the avalanche (R80): a wrapping multiply, then a xor with the logical shift by 64. -/
def mixRound (m s : Wide) : Wide := (s * m) ^^^ ((s * m) >>> 64)

/-- `mix128` (R80): three identical rounds. -/
def mix128 (m s : Wide) : Wide := mixRound m (mixRound m (mixRound m s))

/-- The mixed seed, or the fallback where all 128 bits of it are zero (R82). -/
def mixedSeed (m fallback seed : Wide) : Wide :=
  if mix128 m seed = 0#128 then fallback else mix128 m seed

/-- The low half of a mixed seed is `X`, the high half `Y` (R81). -/
def splitSeed (v : Wide) : GenState := { x := lo64 v, y := hi64 v }

/-- The state SEED constructs (R81). -/
def seedState (m fallback seed : Wide) : GenState := splitSeed (mixedSeed m fallback seed)

/-- The output function `out(x, y)` (R85). -/
def out (g : GenState) : Word := lo64 (mul128 g.x g.y) ^^^ hi64 (mul128 g.x g.y)

/-- `draw()` (R88) under a recurrence `adv`: the word of the pre-advance state, and the advanced state. -/
def drawWith (adv : GenState → GenState) (g : GenState) : Word × GenState := (out g, adv g)

end Sys2Proof.Machine
end

