-- ==== Sys2Proof/Machine/Convert.lean ====
section
/-! DEFINITION. The Distribution Layer as pure functions: one word to a value (spec/41_distribution.md R100 to R107), and a
run of words to bytes (spec/42_split_fill.md R144, R145). -/

namespace Sys2Proof.Machine

/-- `bool_of(w) = w[63]` (R100). -/
def boolOf (w : Word) : Bool := w.getLsbD 63

/-- `u32_of(w) = w[63:32]` (R101). -/
def u32Of (w : Word) : Half := w.extractLsb' 32 32

/-- `bnd32(w, max)` (R102): the count `max + 1` is formed after widening. -/
def bnd32 (w : Word) (max : Half) : Half := (hi64 (mul128 w (max.setWidth 64 + 1#64))).setWidth 32

/-- `range64(w, lo, hi)` (R103), the full span guarded. -/
def range64 (w lo hi : Word) : Word :=
  if hi - lo = 0xFFFFFFFFFFFFFFFF#64 then w else lo + hi64 (mul128 w (hi - lo + 1#64))

/-- `range32(w, lo, hi)` (R104). -/
def range32 (w : Word) (lo hi : Half) : Half := lo + bnd32 w (hi - lo)

/-- `open01_f64(w)` (R105): sign 0, exponent `1022 - ctz64(w)`, fraction `w[63:12]`. -/
def open01F64 (w : Word) : Word := 0#1 ++ BitVec.ofNat 11 (1022 - ctz64 w) ++ w.extractLsb' 12 52

/-- `open01_f32(w)` (R106): the construction of R105 on `r = w[63:32]`, exponent `126 - ctz32(r)`, fraction `r[31:9]`. -/
def open01F32 (w : Word) : Half :=
  0#1 ++ BitVec.ofNat 8 (126 - ctz32 (u32Of w)) ++ (u32Of w).extractLsb' 9 23

/-- `bern(w, p)` (R107): strict less-than. -/
def bern (w : Word) (p : FloatVal) : Bool := ltF64 (f64FromBits (open01F64 w)) p

/-- `le_byte(w, j) = w[8j+7 : 8j]` (R144). -/
def leByte (w : Word) (j : Nat) : Byte := w.extractLsb' (8 * j) 8

/-- The first `r` bytes of a word, least significant first (R41). -/
def leBytes (w : Word) (r : Nat) : List Byte := (List.range r).map (leByte w)

/-- FILL's first loop (R145): `k` whole words, eight bytes each, and the state after them. -/
def fillWords (adv : GenState → GenState) : Nat → GenState → List Byte × GenState
  | 0, g => ([], g)
  | k + 1, g =>
    let d := drawWith adv g
    let rest := fillWords adv k d.2
    (leBytes d.1 8 ++ rest.1, rest.2)

/-- FILL's last word (R145): where `r` is not 0, one more draw and its first `r` bytes. -/
def fillTail (adv : GenState → GenState) (r : Nat) (g : GenState) : List Byte × GenState :=
  if r = 0 then ([], g)
  else
    let d := drawWith adv g
    (leBytes d.1 r, d.2)

/-- The bytes of a FILL of `n` bytes and the state it leaves (R145). -/
def fillBytes (adv : GenState → GenState) (n : Word) (g : GenState) : List Byte × GenState :=
  let whole := fillWords adv (n >>> 3).toNat g
  let tail := fillTail adv (n &&& 7#64).toNat whole.2
  (whole.1 ++ tail.1, tail.2)

end Sys2Proof.Machine
end

