-- ==== Sys2Proof/Machine/Flags.lean ====
section
/-! DEFINITION. The status fields as software sees them: the STATUS register (spec/10_state.md R25, R26), the fault codes
(spec/60_exceptions.md R161) and the status codes of a response (spec/30_encoding.md R68). The block has no condition code
and no arithmetic sets a flag (R28). -/

namespace Sys2Proof.Machine

/-- The code a fault records in `FAULT_CODE` (R161). -/
def FaultKind.code : FaultKind → BitVec 4
  | .illegal => 1#4
  | .unseeded => 2#4
  | .zeroState => 3#4

/-- The number returned in `status` (R68). -/
def Status.code : Status → Nat
  | .ok => 0
  | .fault k => k.code.toNat
  | .faulted => 4

/-- STATUS (R26): `zext_64({FAULT_CODE[3:0], 0b00, FAULT, SEEDED})`. -/
def statusReg (b : Block) : Word :=
  (b.faultCode ++ 0#2 ++ BitVec.ofBool b.fault ++ BitVec.ofBool b.seeded).setWidth 64

end Sys2Proof.Machine
end

