-- ==== Sys2Proof/Machine/Operands.lean ====
section
/-! DEFINITION. Every operand form (spec/30_encoding.md R66) and every result form (R67). An operand bit no form names is
ignored (R69): a meaning reads the buses through these alone. -/

namespace Sys2Proof.Machine

/-- `seed = {OPB[63:0], OPA[63:0]}` (R66). -/
def Port.seed (p : Port) : Wide := p.opb ++ p.opa

/-- LOADSTATE's `x = OPA`, `y = OPB` (R66). -/
def Port.genState (p : Port) : GenState := { x := p.opa, y := p.opb }

/-- BERNOULLI's `p = f64_from_bits(OPA)` (R66). -/
def Port.prob (p : Port) : FloatVal := f64FromBits p.opa

/-- The 32-bit operand `OPA[31:0]`: `max`, or a 32-bit `lo` (R66). -/
def Port.opa32 (p : Port) : Half := p.opa.extractLsb' 0 32

/-- The 32-bit operand `OPB[31:0]`: a 32-bit `hi` (R66). -/
def Port.opb32 (p : Port) : Half := p.opb.extractLsb' 0 32

/-- A 32-bit result on `RES0`, zero-extended for signed commands too (R67). -/
def place32 (v : Half) : Word := v.setWidth 64

/-- A boolean result on `RES0`: 1 for true, 0 for false (R67). -/
def placeBool (v : Bool) : Word := if v then 1#64 else 0#64

/-- The response of a command that executed with `RES0` alone: `RES1 = 0`, `BYTES` empty (R67, R163). -/
def Response.value (v : Word) : Response := { status := .ok, res0 := v, res1 := 0#64, bytes := [] }

/-- SPLIT's response: the child's `x` on `RES0` and its `y` on `RES1` (R67). -/
def Response.child (g : GenState) : Response := { status := .ok, res0 := g.x, res1 := g.y, bytes := [] }

/-- FILL's response: `BYTES`, and zero on both result buses (R67). -/
def Response.stream (bs : List Byte) : Response := { status := .ok, res0 := 0#64, res1 := 0#64, bytes := bs }

/-- The response of a faulting command: its code, and nothing else (R162). -/
def Response.ofFault (k : FaultKind) : Response := { status := .fault k, res0 := 0#64, res1 := 0#64, bytes := [] }

/-- The response of a refused command (R168). -/
def Response.refused : Response := { status := .faulted, res0 := 0#64, res1 := 0#64, bytes := [] }

end Sys2Proof.Machine
end

