-- ==== Sys2Proof/Machine/Ops.lean ====
section
/-! DEFINITION. The named operations every meaning is written over: reading and writing an instance, returning a response,
taking a fault (spec/60_exceptions.md R162) and leaving it by reset (spec/70_reset_and_hazards.md R190), the checks of R164
in their order, and `draw()` (spec/40_mixing_core.md R88). -/

namespace Sys2Proof.Machine

/-- What a meaning answers. -/
abbrev Result := Host.Outcome State Fault Refusal

/-- The entry of instance `k` in a list of instances; `Block.reset` where there is none. -/
def lookupBlock (k : Nat) : List (Nat × Block) → Block
  | [] => Block.reset
  | e :: l => if e.1 = k then e.2 else lookupBlock k l

/-- Put an entry before the first one of a higher number. -/
def insertBlock (k : Nat) (b : Block) : List (Nat × Block) → List (Nat × Block)
  | [] => [(k, b)]
  | e :: l => if k < e.1 then (k, b) :: e :: l else e :: insertBlock k b l

/-- Write instance `k`: its entry goes, and a new one is put in its place unless the value is the reset value. -/
def storeBlock (k : Nat) (b : Block) (l : List (Nat × Block)) : List (Nat × Block) :=
  let others := l.filter (fun e => e.1 != k)
  if b = Block.reset then others else insertBlock k b others

/-- Instance `k` of the platform (R173). -/
def State.block (s : State) (k : Nat) : Block := lookupBlock k s.blocks

/-- The platform with instance `k` holding `b`. -/
def State.setBlock (s : State) (k : Nat) (b : Block) : State := { s with blocks := storeBlock k b s.blocks }

/-- The instance the command at hand was issued to. -/
def State.current (s : State) : Block := s.block s.port.target

/-- The platform with that instance holding `b`. -/
def State.setCurrent (s : State) (b : Block) : State := s.setBlock s.port.target b

/-- Return the response of the command at hand (R60). -/
def State.respond (s : State) (r : Response) : State := { s with responses := (s.port.target, r) :: s.responses }

/-- A command of instance `k` comes to hand with these values on its operand buses (R60). -/
def State.issue (s : State) (k : Nat) (opa opb : Word) : State :=
  { s with port := { target := k, opa := opa, opb := opb } }

/-- `X, Y <- g; SEEDED <- 1`, the status fields as they are (R81, R88, R91). -/
def Block.holding (b : Block) (g : GenState) : Block := { b with xy := some g }

/-- The first fault is recorded; a later one does not overwrite it (R24, R162). -/
def Block.recording (b : Block) (c : FaultKind) : Block :=
  if b.fault then b else { b with fault := true, faultCode := c.code }

/-- TAKING A FAULT, `raise Fault(c)` (R162): the first fault is recorded, the response is its code, nothing else changes. -/
def State.raise (s : State) (c : FaultKind) : State :=
  (s.setCurrent (s.current.recording c)).respond (Response.ofFault c)

/-- THE WAY BACK: reset of instance `k` (R190), the one recovery there is (R171); no response, no draw (R191). -/
def State.resetBlock (s : State) (k : Nat) : State := s.setBlock k Block.reset

/-- The refusal of R168: nothing changes, status FAULTED. -/
def State.refuse (s : State) : State := s.respond Response.refused

/-- Step 2 of R164 before every command but RDSTATUS: a faulted instance refuses. -/
def unlessFaulted (s : State) (run : Result) : Result :=
  if s.current.fault then .next s.refuse else run

/-- Steps 2 and 3 of R164 for a word that is no command: refused, or the ILLEGAL fault (R166). -/
def execIllegal (s : State) : Result := unlessFaulted s (.next (s.raise .illegal))

/-- The construction `X, Y <- g; SEEDED <- 1` with the response of SEED and LOADSTATE (R81, R91). -/
def State.construct (s : State) (g : GenState) : State :=
  (s.setCurrent (s.current.holding g)).respond (Response.value 0#64)

/-- `draw()` (R88). -/
def draw (g : GenState) : Word × GenState := drawWith advance g

/-- A value command (R164 steps 2 and 4, R90): refused while faulted, UNSEEDED while the instance holds no state; else
`run` gives, from the state held, the response and the state left. -/
def valueCommand (s : State) (run : GenState → Response × GenState) : Result :=
  unlessFaulted s
    (match s.current.xy with
    | none => .next (s.raise .unseeded)
    | some g => .next ((s.setCurrent (s.current.holding (run g).2)).respond (run g).1))

/-- A one-word conversion (spec/41_distribution.md, preamble): one draw, `RES0` a function of the word alone. -/
def oneWord (s : State) (convert : Word → Word) : Result :=
  valueCommand s (fun g => (Response.value (convert (draw g).1), (draw g).2))

end Sys2Proof.Machine
end

