-- ==== Sys2Proof/Machine/Construction.lean ====
section
/-! DEFINITION. The meanings of the construction and inspection commands: SEED, LOADSTATE, RDSTATUS
(spec/40_mixing_core.md R81, R91, R92). -/

namespace Sys2Proof.Machine

/-- SEED (R81): the mixed seed, or the fallback, becomes the state. -/
def execSeed (s : State) : Result :=
  unlessFaulted s (.next (s.construct (seedState seedMult seedFallback s.port.seed)))

/-- LOADSTATE (R91): the operands become the state; the all-zero state faults ZERO_STATE (R167). -/
def execLoadstate (s : State) : Result :=
  unlessFaulted s
    (if s.port.genState = ⟨0#64, 0#64⟩ then .next (s.raise .zeroState) else .next (s.construct s.port.genState))

/-- RDSTATUS (R92): `RES0 <- STATUS`; it runs on a faulted instance too (R164 step 1). -/
def execRdstatus (s : State) : Result := .next (s.respond (Response.value (statusReg s.current)))

end Sys2Proof.Machine
end

