-- ==== Sys2Proof/Machine/Distribution.lean ====
section
/-! DEFINITION. The meanings of the one-word conversions (spec/41_distribution.md R111 to R123). -/

namespace Sys2Proof.Machine

/-- BOOL (R111). -/
def execBool (s : State) : Result := oneWord s (fun w => placeBool (boolOf w))

/-- BERNOULLI (R112): no value of `p` faults. -/
def execBernoulli (s : State) : Result := oneWord s (fun w => placeBool (bern w s.port.prob))

/-- U64, also written NEXT (R113): the raw word. -/
def execU64 (s : State) : Result := oneWord s (fun w => w)

/-- I64 (R114): bit for bit the word of U64, read as signed. -/
def execI64 (s : State) : Result := oneWord s (fun w => w)

/-- U32 (R115): the high half of the word. -/
def execU32 (s : State) : Result := oneWord s (fun w => place32 (u32Of w))

/-- I32 (R116): the high half of the word, read as signed, zero-extended on the bus. -/
def execI32 (s : State) : Result := oneWord s (fun w => place32 (u32Of w))

/-- BOUNDED_U32 (R117): `max = OPA[31:0]`. -/
def execBoundedU32 (s : State) : Result := oneWord s (fun w => place32 (bnd32 w s.port.opa32))

/-- RANGE_U64 (R118). -/
def execRangeU64 (s : State) : Result := oneWord s (fun w => range64 w s.port.opa s.port.opb)

/-- RANGE_I64 (R119): the same function on the two's-complement patterns. -/
def execRangeI64 (s : State) : Result := oneWord s (fun w => range64 w s.port.opa s.port.opb)

/-- RANGE_U32 (R120). -/
def execRangeU32 (s : State) : Result := oneWord s (fun w => place32 (range32 w s.port.opa32 s.port.opb32))

/-- RANGE_I32 (R121): the same function on the two's-complement patterns, zero-extended on the bus. -/
def execRangeI32 (s : State) : Result := oneWord s (fun w => place32 (range32 w s.port.opa32 s.port.opb32))

/-- OPEN01_F64 (R122). -/
def execOpen01F64 (s : State) : Result := oneWord s (fun w => open01F64 w)

/-- OPEN01_F32 (R123). -/
def execOpen01F32 (s : State) : Result := oneWord s (fun w => place32 (open01F32 w))

end Sys2Proof.Machine
end

