-- ==== Sys2Proof/Machine/SplitFill.lean ====
section
/-! DEFINITION. The meanings of the multi-word operations SPLIT and FILL (spec/42_split_fill.md R140, R145), and the host's
own stores of FILL's bytes (spec/20_memory.md R42), which no command sees. -/

namespace Sys2Proof.Machine

/-- The child state of SPLIT and the state its parent is left in (R140): two draws, the first word forced odd. -/
def splitChild (g : GenState) : GenState × GenState :=
  let first := draw g
  let second := draw first.2
  ({ x := first.1 ||| 1#64, y := second.1 }, second.2)

/-- SPLIT (R140): the child is returned, not installed. -/
def execSplit (s : State) : Result :=
  valueCommand s (fun g => (Response.child (splitChild g).1, (splitChild g).2))

/-- FILL (R145) of `n = OPA` bytes, one atomic step whatever `n` is (R46). -/
def execFill (s : State) : Result :=
  valueCommand s (fun g => (Response.stream (fillBytes advance s.port.opa g).1, (fillBytes advance s.port.opa g).2))

/-- The host's stores after a FILL into its buffer at `dst` (R42): `HostWrite(dst + i, BYTES[i])` for i = 0 to n-1. -/
def hostWrites (dst : Nat) : List Byte → List Host.Cell
  | [] => []
  | b :: bs => (dst, b) :: hostWrites (dst + 1) bs

end Sys2Proof.Machine
end

