-- ==== Sys2Proof/Machine/Dispatch.lean ====
section
/-! DEFINITION. One arm per command of the opcode map (spec/30_encoding.md R63), each a call of its meaning. -/

namespace Sys2Proof.Machine

def exec (i : Instr) (s : State) : Host.Outcome State Fault Refusal :=
  match i with
  | .seed => Sys2Proof.Machine.execSeed s
  | .loadstate => Sys2Proof.Machine.execLoadstate s
  | .rdstatus => Sys2Proof.Machine.execRdstatus s
  | .bool => Sys2Proof.Machine.execBool s
  | .bernoulli => Sys2Proof.Machine.execBernoulli s
  | .u64 => Sys2Proof.Machine.execU64 s
  | .i64 => Sys2Proof.Machine.execI64 s
  | .u32 => Sys2Proof.Machine.execU32 s
  | .i32 => Sys2Proof.Machine.execI32 s
  | .boundedU32 => Sys2Proof.Machine.execBoundedU32 s
  | .rangeU64 => Sys2Proof.Machine.execRangeU64 s
  | .rangeI64 => Sys2Proof.Machine.execRangeI64 s
  | .rangeU32 => Sys2Proof.Machine.execRangeU32 s
  | .rangeI32 => Sys2Proof.Machine.execRangeI32 s
  | .open01F64 => Sys2Proof.Machine.execOpen01F64 s
  | .open01F32 => Sys2Proof.Machine.execOpen01F32 s
  | .split => Sys2Proof.Machine.execSplit s
  | .fill => Sys2Proof.Machine.execFill s

end Sys2Proof.Machine
end

