-- ==== Sys2Proof/Machine/Issue.lean ====
section
/-! DEFINITION. What a host event does (spec/30_encoding.md R60, spec/60_exceptions.md R164, spec/70_reset_and_hazards.md
R190). The block fetches nothing (spec/10_state.md R27): a command word comes from the host. -/

namespace Sys2Proof.Machine

/-- A command word at the instance the port names (R164): the command it decodes to, or the checks of an illegal word. -/
def execWord (cmd : CmdWord) (s : State) : Result :=
  match decode cmd with
  | .ok i => exec i s
  | .error _ => execIllegal s

/-- One host event takes effect: a reset of one instance, or a command to one. -/
def takeEvent (e : HostEvent) (s : State) : Result :=
  match e with
  | .reset k => if instanceExists k then .next (s.resetBlock k) else .fault (.noSuchInstance k)
  | .command k cmd opa opb =>
    if instanceExists k then execWord cmd (s.issue k opa opb) else .fault (.noSuchInstance k)

/-- The host event that issues the table word `w` of `nbits` bits to the instance, and with the operand values, that the
port holds. A word of more than 32 bits is cut to the 32 bits of `CMD` (R65). -/
def Port.eventOf (p : Port) (nbits w : Nat) : HostEvent :=
  .command p.target (BitVec.ofNat 32 (w % 2 ^ nbits)) p.opa p.opb

end Sys2Proof.Machine
end

