-- ==== Sys2Proof/Machine/Step.lean ====
section
/-! DEFINITION. One step of the platform: the next host event takes effect, whole (spec/20_memory.md R46, R48). -/

namespace Sys2Proof.Machine

/-- The next host event takes effect; where there is none, the platform holds its state (spec/60_exceptions.md R177; log
entry 10). -/
def step (s : State) : Host.Outcome State Fault Refusal :=
  match s.pending with
  | [] => .next s
  | e :: rest => takeEvent e { s with pending := rest }

/-- `s` with the table word `w` as the host's next command, to the instance and with the operand values the port of `s`
holds (after reset: instance 0 and zeros). -/
def State.withFetchWord (s : State) (nbits w : Nat) : State :=
  { s with pending := s.port.eventOf nbits w :: s.pending }

end Sys2Proof.Machine
end

