-- ==== Sys2Proof/Machine/Assembler.lean ====
section
/-! DEFINITION. The assembler (spec/30_encoding.md R70 to R72): a line of text to a command word and its operand values. It is
a tool of the host, and `step` does not read it. What R70 leaves open is log entry 14. -/

namespace Sys2Proof.Machine

/-- What the assembler emits for a line (R72). -/
structure AsmCommand where
  cmd : CmdWord
  opa : Word
  opb : Word
  deriving DecidableEq, Repr

/-- The mnemonic of R63. -/
def mnemonic : Instr → List Char
  | .seed => "SEED".toList
  | .loadstate => "LOADSTATE".toList
  | .rdstatus => "RDSTATUS".toList
  | .bool => "BOOL".toList
  | .bernoulli => "BERNOULLI".toList
  | .u64 => "U64".toList
  | .i64 => "I64".toList
  | .u32 => "U32".toList
  | .i32 => "I32".toList
  | .boundedU32 => "BOUNDED_U32".toList
  | .rangeU64 => "RANGE_U64".toList
  | .rangeI64 => "RANGE_I64".toList
  | .rangeU32 => "RANGE_U32".toList
  | .rangeI32 => "RANGE_I32".toList
  | .open01F64 => "OPEN01_F64".toList
  | .open01F32 => "OPEN01_F32".toList
  | .split => "SPLIT".toList
  | .fill => "FILL".toList

/-- The commands in the order of R63. -/
def allInstrs : List Instr :=
  [.seed, .loadstate, .rdstatus, .bool, .bernoulli, .u64, .i64, .u32, .i32, .boundedU32, .rangeU64, .rangeI64, .rangeU32,
    .rangeI32, .open01F64, .open01F32, .split, .fill]

/-- The command a name stands for; `NEXT` is `U64` and the only pseudo-instruction (R71). -/
def instrOfName (name : List Char) : Option Instr :=
  if name = "NEXT".toList then some .u64 else allInstrs.find? (fun i => mnemonic i = name)

/-- The digit a character is in a base. -/
def digitOf (base : Nat) (c : Char) : Option Nat :=
  let d :=
    if '0' ≤ c ∧ c ≤ '9' then c.toNat - '0'.toNat
    else if 'a' ≤ c ∧ c ≤ 'f' then c.toNat - 'a'.toNat + 10
    else if 'A' ≤ c ∧ c ≤ 'F' then c.toNat - 'A'.toNat + 10
    else base
  if d < base then some d else none

/-- A run of digits after the value `acc`. -/
def digitsFrom (base : Nat) : Nat → List Char → Option Nat
  | acc, [] => some acc
  | acc, c :: cs =>
    match digitOf base c with
    | some d => digitsFrom base (acc * base + d) cs
    | none => none

/-- A number in a base: one digit or more. -/
def digits (base : Nat) : List Char → Option Nat
  | [] => none
  | c :: cs => digitsFrom base 0 (c :: cs)

/-- A sign, if one is written, and the rest. DESIGN CHOICE: a leading `+` is taken, before an unsigned operand too, where R70 shows
only `-` (log entry 14). -/
def takeSign : List Char → Bool × List Char
  | '-' :: cs => (true, cs)
  | '+' :: cs => (false, cs)
  | cs => (false, cs)

/-- The pattern of an integer operand of `width` bits: `0x` and hex digits, or a decimal; a negative value only for a signed
operand, as its two's-complement pattern (R70). A value outside the width is no operand. -/
def intOperand (signed : Bool) (width : Nat) (text : List Char) : Option Nat :=
  match text with
  | '0' :: 'x' :: hex => (digits 16 hex).filter (· < 2 ^ width)
  | _ =>
    match takeSign text, signed with
    | (true, ds), true => ((digits 10 ds).filter (· ≤ 2 ^ (width - 1))).map (fun v => (2 ^ width - v) % 2 ^ width)
    | (true, _), false => none
    | (false, ds), true => (digits 10 ds).filter (· < 2 ^ (width - 1))
    | (false, ds), false => (digits 10 ds).filter (· < 2 ^ width)

/-- The binary64 pattern nearest to `num / den`, ties to even, where `num` and `den` are not zero; above the largest finite
value it is the pattern of infinity. -/
def nearestF64 (num den : Nat) : Nat :=
  let guess : Int := (Nat.log2 num : Int) - (Nat.log2 den : Int)
  let atLeast := decide (den * 2 ^ guess.toNat ≤ num * 2 ^ (-guess).toNat)
  let expo : Int := max (if atLeast then guess else guess - 1) (-1022)
  let n := num * 2 ^ (52 - expo).toNat
  let d := den * 2 ^ (expo - 52).toNat
  let q := n / d
  let up := d < 2 * (n % d) ∨ (2 * (n % d) = d ∧ q % 2 = 1)
  min ((expo + 1022).toNat * 2 ^ 52 + (if up then q + 1 else q)) (2047 * 2 ^ 52)

/-- The power of ten written after a decimal's digits: nothing, or `e` and a signed integer. -/
def exponentOf : List Char → Option Int
  | [] => some 0
  | c :: cs =>
    if c = 'e' ∨ c = 'E' then
      (digits 10 (takeSign cs).2).map (fun v => if (takeSign cs).1 then -(v : Int) else (v : Int))
    else none

/-- A decimal floating literal as its binary64 pattern: sign, digits, an optional fraction, an optional exponent. R70 says
"a decimal floating literal" and no more. DESIGN CHOICE: this grammar (log entry 14), in which a bare integer, an `e` or `E`
exponent, and a point without digits on one of its sides are taken. -/
def decimalF64 (text : List Char) : Option Nat :=
  let signed := takeSign text
  let whole := signed.2.span Char.isDigit
  let frac :=
    match whole.2 with
    | '.' :: cs => cs.span Char.isDigit
    | cs => ([], cs)
  match digits 10 (whole.1 ++ frac.1), exponentOf frac.2 with
  | some m, some e =>
    let ten : Int := e - frac.1.length
    let pattern := if m = 0 then 0 else nearestF64 (m * 10 ^ ten.toNat) (10 ^ (-ten).toNat)
    some (if signed.1 then 2 ^ 63 + pattern else pattern)
  | _, _ => none

/-- BERNOULLI's operand: `0x` and 16 hex digits read as the pattern itself, or a decimal floating literal (R70). -/
def probOperand (text : List Char) : Option Nat :=
  match text with
  | '0' :: 'x' :: hex => if hex.length = 16 then digits 16 hex else none
  | _ => decimalF64 text

/-- How a command's operands are written (R70, R66). -/
inductive OperandForm where
  /-- No operand. -/
  | nothing
  /-- One 128-bit integer, split over both buses. -/
  | seed
  /-- One binary64, on OPA. -/
  | prob
  /-- One integer, on OPA. -/
  | one (signed : Bool) (width : Nat)
  /-- Two integers, on OPA and OPB. -/
  | two (signed : Bool) (width : Nat)
  deriving DecidableEq, Repr

/-- The operands each command is written with (R66). -/
def operandForm : Instr → OperandForm
  | .seed => .seed
  | .loadstate => .two false 64
  | .rdstatus => .nothing
  | .bool => .nothing
  | .bernoulli => .prob
  | .u64 => .nothing
  | .i64 => .nothing
  | .u32 => .nothing
  | .i32 => .nothing
  | .boundedU32 => .one false 32
  | .rangeU64 => .two false 64
  | .rangeI64 => .two true 64
  | .rangeU32 => .two false 32
  | .rangeI32 => .two true 32
  | .open01F64 => .nothing
  | .open01F32 => .nothing
  | .split => .nothing
  | .fill => .one false 64

/-- The operand values of R70 on `OPA` and `OPB`; a bus the command does not read is 0 (R72). -/
def operandValues (form : OperandForm) (texts : List (List Char)) : Option (Word × Word) :=
  match form, texts with
  | .nothing, [] => some (0#64, 0#64)
  | .seed, [a] => (intOperand false 128 a).map (fun v => (BitVec.ofNat 64 v, BitVec.ofNat 64 (v / 2 ^ 64)))
  | .prob, [a] => (probOperand a).map (fun v => (BitVec.ofNat 64 v, 0#64))
  | .one sg w, [a] => (intOperand sg w a).map (fun v => (BitVec.ofNat 64 v, 0#64))
  | .two sg w, [a, b] =>
    match intOperand sg w a, intOperand sg w b with
    | some u, some v => some (BitVec.ofNat 64 u, BitVec.ofNat 64 v)
    | _, _ => none
  | _, _ => none

/-- Text without the blanks at its two ends. -/
def trimBlanks (text : List Char) : List Char :=
  ((text.dropWhile (· = ' ')).reverse.dropWhile (· = ' ')).reverse

/-- Text cut at its commas. -/
def splitCommas : List Char → List (List Char)
  | [] => [[]]
  | c :: cs =>
    if c = ',' then [] :: splitCommas cs
    else
      match splitCommas cs with
      | [] => [[c]]
      | piece :: more => (c :: piece) :: more

/-- The operand texts after a mnemonic: none, or one between each two commas. -/
def operandTexts (rest : List Char) : List (List Char) :=
  if trimBlanks rest = [] then [] else (splitCommas rest).map trimBlanks

/-- One line: the mnemonic, then its operands separated by commas, in the order `OPA`, `OPB` (R70); `CMD = zext_32(OP)`
(R72). -/
def assembleLine (line : List Char) : Option AsmCommand :=
  let parts := (trimBlanks line).span (· ≠ ' ')
  match instrOfName parts.1 with
  | none => none
  | some i =>
    match operandValues (operandForm i) (operandTexts parts.2) with
    | none => none
    | some (a, b) => some { cmd := encode i, opa := a, opb := b }

end Sys2Proof.Machine
end

