-- ==== Sys2Proof/Safety.lean ====
section
/-! DEFINITION. What counts as a good state and a safe run, in the terms the claims use. -/

namespace Sys2Proof.Machine

/-- What every instance meets at all times: its words are not both zero (spec/10_state.md R21), and `FAULT_CODE` holds a code
of spec/60_exceptions.md R161 exactly while `FAULT = 1` (R24). -/
abbrev Block.Valid (b : Block) : Prop :=
  b.xy ≠ some ⟨0#64, 0#64⟩ ∧
  (if b.fault then b.faultCode = 1#4 ∨ b.faultCode = 2#4 ∨ b.faultCode = 3#4 else b.faultCode = 0#4)

/-- The list of instances is in its one canonical form: numbers strictly rising, no entry at the reset value. -/
abbrev Canonical (l : List (Nat × Block)) : Prop :=
  l.Pairwise (fun a b => a.1 < b.1) ∧ ∀ e ∈ l, e.2 ≠ Block.reset

/-- The invariant of the platform: canonical, every listed instance is one the platform holds, and every instance is valid. -/
abbrev State.Inv (s : State) : Prop :=
  Canonical s.blocks ∧ (∀ e ∈ s.blocks, instanceExists e.1 = true) ∧ ∀ e ∈ s.blocks, e.2.Valid

/-- No instance has faulted: "a run that reaches `FAULT = 1` has gone wrong" (R168). -/
abbrev State.Safe (s : State) : Prop := ∀ e ∈ s.blocks, e.2.fault = false

/-- The host events that name instance `k`. -/
def HostEvent.target : HostEvent → Nat
  | .command k _ _ _ => k
  | .reset k => k

/-- The platform as instance `k` alone would have it: only the host events that name `k` are to come. -/
def State.onlyEventsOf (s : State) (k : Nat) : State :=
  { s with pending := s.pending.filter (fun e => e.target == k) }

/-- What the host has received from instance `k`, newest first. -/
def State.responsesOf (s : State) (k : Nat) : List Response :=
  (s.responses.filter (fun e => e.1 == k)).map (·.2)

/-- `n` applications of a recurrence. -/
def iterate (f : GenState → GenState) : Nat → GenState → GenState
  | 0, g => g
  | n + 1, g => iterate f n (f g)

/-- The first `n` words drawn from a state, in draw order (R88, R89). -/
def wordsFrom (adv : GenState → GenState) : Nat → GenState → List Word
  | 0, _ => []
  | n + 1, g => out g :: wordsFrom adv n (adv g)

/-- How many words a command draws (spec/30_encoding.md R63, column "draws"), for `n = OPA`. -/
def drawsOf (i : Instr) (n : Word) : Nat :=
  match i with
  | .seed => 0
  | .loadstate => 0
  | .rdstatus => 0
  | .bool => 1
  | .bernoulli => 1
  | .u64 => 1
  | .i64 => 1
  | .u32 => 1
  | .i32 => 1
  | .boundedU32 => 1
  | .rangeU64 => 1
  | .rangeI64 => 1
  | .rangeU32 => 1
  | .rangeI32 => 1
  | .open01F64 => 1
  | .open01F32 => 1
  | .split => 2
  | .fill => (n.toNat + 7) / 8

/-- The bits of `OPA` a command reads (spec/30_encoding.md R66); it ignores the others (R69). -/
def opaBits (i : Instr) : Word :=
  match i with
  | .seed => 0xFFFFFFFFFFFFFFFF#64
  | .loadstate => 0xFFFFFFFFFFFFFFFF#64
  | .rdstatus => 0#64
  | .bool => 0#64
  | .bernoulli => 0xFFFFFFFFFFFFFFFF#64
  | .u64 => 0#64
  | .i64 => 0#64
  | .u32 => 0#64
  | .i32 => 0#64
  | .boundedU32 => 0x00000000FFFFFFFF#64
  | .rangeU64 => 0xFFFFFFFFFFFFFFFF#64
  | .rangeI64 => 0xFFFFFFFFFFFFFFFF#64
  | .rangeU32 => 0x00000000FFFFFFFF#64
  | .rangeI32 => 0x00000000FFFFFFFF#64
  | .open01F64 => 0#64
  | .open01F32 => 0#64
  | .split => 0#64
  | .fill => 0xFFFFFFFFFFFFFFFF#64

/-- The bits of `OPB` a command reads (R66). -/
def opbBits (i : Instr) : Word :=
  match i with
  | .seed => 0xFFFFFFFFFFFFFFFF#64
  | .loadstate => 0xFFFFFFFFFFFFFFFF#64
  | .rdstatus => 0#64
  | .bool => 0#64
  | .bernoulli => 0#64
  | .u64 => 0#64
  | .i64 => 0#64
  | .u32 => 0#64
  | .i32 => 0#64
  | .boundedU32 => 0#64
  | .rangeU64 => 0xFFFFFFFFFFFFFFFF#64
  | .rangeI64 => 0xFFFFFFFFFFFFFFFF#64
  | .rangeU32 => 0x00000000FFFFFFFF#64
  | .rangeI32 => 0x00000000FFFFFFFF#64
  | .open01F64 => 0#64
  | .open01F32 => 0#64
  | .split => 0#64
  | .fill => 0#64

/-- The instance the command at hand was issued to has not faulted and holds the state `g`. -/
abbrev State.Ready (s : State) (g : GenState) : Prop := s.current.fault = false ∧ s.current.xy = some g

/-- `o` is a next state in which the instance at hand is `b`, the host has received `r` from it, and every other instance, the
port, what is still to come and every earlier response are as in `s`. -/
def Answers (o : Result) (s : State) (b : Block) (r : Response) : Prop :=
  ∃ t, o = .next t ∧ t.current = b ∧ (∀ k, k ≠ s.port.target → t.block k = s.block k) ∧ t.port = s.port ∧
    t.pending = s.pending ∧ t.responses = (s.port.target, r) :: s.responses

/-- The command executes: status OK with these results, and the instance at hand holds `g` with its status fields as before. -/
def Executes (i : Instr) (s : State) (g : GenState) (res0 res1 : Word) (bytes : List Byte) : Prop :=
  Answers (exec i s) s { xy := some g, fault := s.current.fault, faultCode := s.current.faultCode }
    { status := .ok, res0 := res0, res1 := res1, bytes := bytes }

/-- The fault `c` is taken as R162 says: the status fields record it, the response is its code, and `X`, `Y`, `SEEDED` stay. -/
def Faults (o : Result) (s : State) (c : FaultKind) : Prop :=
  Answers o s { xy := s.current.xy, fault := true, faultCode := c.code }
    { status := .fault c, res0 := 0#64, res1 := 0#64, bytes := [] }

/-- A sequence of commands, each a word and its operand buses, all issued to instance `k`. -/
def commandsTo (k : Nat) (cs : List (CmdWord × Word × Word)) : List HostEvent :=
  cs.map (fun c => .command k c.1 c.2.1 c.2.2)

/-- How many of the 2^64 words meet a test. -/
def countWords (p : Word → Bool) : Nat := ((Finset.range (2 ^ 64)).filter (fun n => p (BitVec.ofNat 64 n) = true)).card

/-- The platform after `n` steps. -/
def run : Nat → State → Result
  | 0, s => .next s
  | n + 1, s =>
    match step s with
    | .next t => run n t
    | .fault f => .fault f
    | .refused r => .refused r

end Sys2Proof.Machine
end

