-- ==== Sys2Proof/Certificates/Slice0/Obligations.lean ====
section
/-! DEFINITION. The statements for the provers, in the order of the spec's files: the parameters, the state and its reset, the
encoding, the core's commands, the conversions, SPLIT and FILL, the faults, and the rules of the whole platform. -/

open Sys2Proof Sys2Proof.Machine

/-! ### Parameters (spec/00_scope.md) -/

/-- R7: the multiplier is odd; R8: the fallback is not zero; R10: at least one instance, and instance `k` is there exactly
when `k < N_INSTANCES`; R86 P2: ADVANCE keeps a state off zero. (That an instance is named by a number is log entry 4.) -/
def Obligations.ParametersAreLegal : Prop :=
  seedMult.getLsbD 0 = true ∧ seedFallback ≠ 0#128 ∧ 1 ≤ nInstances ∧
  (∀ k, instanceExists k = true ↔ k < nInstances) ∧
  ∀ g : GenState, g ≠ ⟨0#64, 0#64⟩ → advance g ≠ ⟨0#64, 0#64⟩

/-- R7 to R10, log entries 1 to 4: each parameter is its free constant with no more built in than the rule asks, and that shuts
no parameter out: every odd multiplier, every fallback but zero, every recurrence that meets P2 of R86 and every count from
1 up is one the model stands for. -/
def Obligations.NoLegalParameterIsShutOut : Prop :=
  (seedMult = Config.seedMultHigh ++ 1#1 ∧ ∀ m : Wide, m.getLsbD 0 = true → ∃ high : BitVec 127, m = high ++ 1#1) ∧
  (seedFallback = nonZero Config.seedFallbackFree ∧ ∀ v : Wide, v ≠ 0#128 → nonZero v = v) ∧
  (advance = keepNonZero Config.advanceFree ∧
    ∀ f : Word → Word → Word × Word,
      (∀ x y, ¬(x = 0#64 ∧ y = 0#64) → f x y ≠ (0#64, 0#64)) →
      ∀ x y, keepNonZero f ⟨x, y⟩ = ⟨(f x y).1, (f x y).2⟩) ∧
  nInstances = Config.extraInstances + 1 ∧ ∀ n, 1 ≤ n → ∃ extra, n = extra + 1

/-- R14: what a binary64 pattern is read as: NaN, an infinity, or a value given here in ℚ (the model
counts it in units of 2^-1074, log entry 13). -/
def Obligations.Binary64Reading : Prop :=
  ∀ b : Word,
    let e : Nat := b.toNat / 2 ^ 52 % 2 ^ 11
    let f : Nat := b.toNat % 2 ^ 52
    let sgn : ℚ := if b.msb then -1 else 1
    (f64FromBits b = .nan ↔ e = 2047 ∧ f ≠ 0) ∧
    (∀ n, f64FromBits b = .inf n ↔ e = 2047 ∧ f = 0 ∧ n = b.msb) ∧
    (0 < e → e < 2047 → ∃ v : Int, f64FromBits b = .finite v ∧
      (v : ℚ) * (2 : ℚ) ^ (-1074 : Int) = sgn * (2 : ℚ) ^ ((e : Int) - 1023) * (1 + (f : ℚ) / 2 ^ 52)) ∧
    (e = 0 → ∃ v : Int, f64FromBits b = .finite v ∧
      (v : ℚ) * (2 : ℚ) ^ (-1074 : Int) = sgn * (2 : ℚ) ^ (-1022 : Int) * ((f : ℚ) / 2 ^ 52))

/-- R14: the same for a binary32 pattern, which the model counts in units of 2^-149 (log entry 13). -/
def Obligations.Binary32Reading : Prop :=
  ∀ b : Half,
    let e : Nat := b.toNat / 2 ^ 23 % 2 ^ 8
    let f : Nat := b.toNat % 2 ^ 23
    let sgn : ℚ := if b.msb then -1 else 1
    (f32FromBits b = .nan ↔ e = 255 ∧ f ≠ 0) ∧
    (∀ n, f32FromBits b = .inf n ↔ e = 255 ∧ f = 0 ∧ n = b.msb) ∧
    (0 < e → e < 255 → ∃ v : Int, f32FromBits b = .finite v ∧
      (v : ℚ) * (2 : ℚ) ^ (-149 : Int) = sgn * (2 : ℚ) ^ ((e : Int) - 127) * (1 + (f : ℚ) / 2 ^ 23)) ∧
    (e = 0 → ∃ v : Int, f32FromBits b = .finite v ∧
      (v : ℚ) * (2 : ℚ) ^ (-149 : Int) = sgn * (2 : ℚ) ^ (-126 : Int) * ((f : ℚ) / 2 ^ 23))

/-- R14: `lt_f64` is the order of the values, with negative infinity below and positive infinity above every finite one; it is
false when either operand is NaN and for `-0.0 < +0.0`; so it is irreflexive, transitive and, off NaN, total up to equal data.
(A finite value is a count of 2^-1074, log entry 13.) -/
def Obligations.OrderedLessThan : Prop :=
  (∀ a b : Int, ltF64 (.finite a) (.finite b) = decide (a < b)) ∧
  (∀ a : Int, ltF64 (.inf true) (.finite a) = true ∧ ltF64 (.finite a) (.inf false) = true) ∧
  ltF64 (.inf true) (.inf false) = true ∧
  (∀ p, ltF64 .nan p = false ∧ ltF64 p .nan = false) ∧
  ltF64 (f64FromBits 0x8000000000000000#64) (f64FromBits 0#64) = false ∧
  (∀ p, ltF64 p p = false) ∧
  (∀ p q r, ltF64 p q = true → ltF64 q r = true → ltF64 p r = true) ∧
  ∀ p q, p ≠ .nan → q ≠ .nan → ltF64 p q = true ∨ p = q ∨ ltF64 q p = true

/-! ### State and reset (spec/10_state.md, spec/70_reset_and_hazards.md) -/

/-- R35: after reset no instance holds a state and every status field is 0; so STATUS reads 0. -/
def Obligations.ResetLeavesEveryInstanceUnseeded : Prop :=
  ∀ k, State.reset.block k = { xy := none, fault := false, faultCode := 0#4 } ∧ statusReg (State.reset.block k) = 0#64

/-- R190, R191: a reset event puts its instance, and it alone, in that state, whatever the instance held; it returns nothing. -/
def Obligations.ResetEventRestoresOneInstance : Prop :=
  ∀ (s : State) (k : Nat) (rest : List HostEvent), s.pending = .reset k :: rest → instanceExists k = true →
    ∃ t, step s = .next t ∧ t.block k = { xy := none, fault := false, faultCode := 0#4 } ∧
      (∀ j, j ≠ k → t.block j = s.block j) ∧ t.responses = s.responses ∧ t.port = s.port ∧ t.pending = rest

/-- R25, R26: STATUS is `SEEDED | (FAULT << 1) | (FAULT_CODE << 4)`, and its reserved bits read 0. -/
def Obligations.StatusRegisterLayout : Prop :=
  ∀ b : Block,
    statusReg b = (if b.seeded then 1#64 else 0#64) ||| ((if b.fault then 1#64 else 0#64) <<< 1) |||
      (b.faultCode.setWidth 64 <<< 4) ∧
    (statusReg b).getLsbD 0 = b.xy.isSome ∧ (statusReg b).getLsbD 1 = b.fault ∧
    (statusReg b).extractLsb' 2 2 = 0#2 ∧ (statusReg b).extractLsb' 4 4 = b.faultCode ∧
    (statusReg b).extractLsb' 8 56 = 0#56

/-- R24: FAULT and FAULT_CODE are set only by `raise Fault(c)`, which also answers `c`, keep the first fault, and are cleared
only by reset. -/
def Obligations.FirstFaultIsKeptUntilReset : Prop :=
  ∀ (s t : State) (k : Nat), step s = .next t → s.pending.head? ≠ some (.reset k) →
    ((s.block k).fault = true → (t.block k).fault = true ∧ (t.block k).faultCode = (s.block k).faultCode) ∧
    ((s.block k).fault = false →
      ((t.block k).fault = false ∧ (t.block k).faultCode = (s.block k).faultCode) ∨
      ∃ c : FaultKind, (t.block k).fault = true ∧ (t.block k).faultCode = c.code ∧
        t.responses = (k, { status := .fault c, res0 := 0#64, res1 := 0#64, bytes := [] }) :: s.responses)

/-- R23: SEEDED becomes 1 only by SEED or LOADSTATE and becomes 0 only by reset. -/
def Obligations.SeededSetByConstructionClearedByReset : Prop :=
  ∀ (s t : State) (k : Nat), step s = .next t →
    ((s.block k).seeded = true → (t.block k).seeded = false → s.pending.head? = some (.reset k)) ∧
    ((s.block k).seeded = false → (t.block k).seeded = true →
      ∃ w a b, s.pending.head? = some (.command k w a b) ∧ (decode w = .ok .seed ∨ decode w = .ok .loadstate))

/-- R21 holds at reset, with the canonical form of the instances and R24's codes. -/
def Obligations.InvariantHoldsAtReset : Prop := State.reset.Inv

/-- R21: every step keeps the invariant, from every state that meets it; under it no instance holds the zero state. -/
def Obligations.EveryStepKeepsTheInvariant : Prop :=
  ∀ s t : State, s.Inv → step s = .next t →
    t.Inv ∧ ∀ (k : Nat) (g : GenState), (t.block k).xy = some g → ¬(g.x = 0#64 ∧ g.y = 0#64)

/-- R32: the responses the host has received are not state: no command reads them. -/
def Obligations.ResponsesAreNotRead : Prop :=
  ∀ (i : Instr) (s : State) (old : List (Nat × Response)),
    ∃ t r, exec i s = .next t ∧ t.responses = (s.port.target, r) :: s.responses ∧
      exec i { s with responses := old } = .next { t with responses := (s.port.target, r) :: old }

/-! ### Encoding (spec/30_encoding.md) -/

/-- R63, R64: the word of every row of the opcode map, written out, is read as that row's command, and the words at the edges of
R64's ranges, with those that only a reserved bit makes illegal, as none. -/
def Obligations.OpcodeMapWordsDecode : Prop :=
  decode 0x00000001#32 = .ok .seed ∧ decode 0x00000002#32 = .ok .loadstate ∧ decode 0x00000003#32 = .ok .rdstatus ∧
  decode 0x00000010#32 = .ok .bool ∧ decode 0x00000011#32 = .ok .bernoulli ∧ decode 0x00000012#32 = .ok .u64 ∧
  decode 0x00000013#32 = .ok .i64 ∧ decode 0x00000014#32 = .ok .u32 ∧ decode 0x00000015#32 = .ok .i32 ∧
  decode 0x00000016#32 = .ok .boundedU32 ∧ decode 0x00000017#32 = .ok .rangeU64 ∧
  decode 0x00000018#32 = .ok .rangeI64 ∧ decode 0x00000019#32 = .ok .rangeU32 ∧
  decode 0x0000001A#32 = .ok .rangeI32 ∧ decode 0x0000001B#32 = .ok .open01F64 ∧
  decode 0x0000001C#32 = .ok .open01F32 ∧ decode 0x00000020#32 = .ok .split ∧ decode 0x00000021#32 = .ok .fill ∧
  ∀ w ∈ [0x00000000#32, 0x00000004#32, 0x0000000F#32, 0x0000001D#32, 0x0000001F#32, 0x00000022#32, 0x000000FF#32,
      0x00000100#32, 0x00000101#32, 0x80000012#32],
    ∀ i, decode w ≠ .ok i

/-- R62, R166: a word is read as a command exactly when it is legal; every other word faults ILLEGAL at an instance that has
not faulted, whatever the operand buses hold and whether or not it is seeded. -/
def Obligations.LegalWordsAreTheCommands : Prop :=
  (∀ w : CmdWord, (∃ i, decode w = .ok i) ↔ legal w = true) ∧
  ∀ (w : CmdWord) (s : State), legal w = false → s.current.fault = false → Faults (execWord w s) s .illegal

/-- R61, R63, R65: decode and encode agree both ways: a word is read as `i` exactly when it is the word of `i`. -/
def Obligations.DecodeAndEncodeAgree : Prop := ∀ (w : CmdWord) (i : Instr), decode w = .ok i ↔ w = encode i

/-- R69: two operand pairs that agree in the bits a command reads (R66) give the same response and leave the same instances. -/
def Obligations.IgnoredOperandBitsChangeNothing : Prop :=
  ∀ (i : Instr) (s : State) (a b : Word),
    a &&& opaBits i = s.port.opa &&& opaBits i → b &&& opbBits i = s.port.opb &&& opbBits i →
    ∃ t t', exec i s = .next t ∧ exec i { s with port := { s.port with opa := a, opb := b } } = .next t' ∧
      t'.blocks = t.blocks ∧ t'.responses = t.responses

/-- R67, R68: what a response holds: `RES1` is SPLIT's, `BYTES` FILL's, a 32-bit result is zero-extended, a boolean is 0 or
1, a fault or a refusal returns nothing, and the status is one of five codes. -/
def Obligations.ResponsePlacement : Prop :=
  ∀ (i : Instr) (s t : State) (r : Response), exec i s = .next t → t.responses = (s.port.target, r) :: s.responses →
    r.status.code ≤ 4 ∧ (r.status.code ≠ 0 → r.res0 = 0#64 ∧ r.res1 = 0#64 ∧ r.bytes = []) ∧
    (i ≠ .split → r.res1 = 0#64) ∧ (i ≠ .fill → r.bytes = []) ∧
    (i = .u32 ∨ i = .i32 ∨ i = .boundedU32 ∨ i = .rangeU32 ∨ i = .rangeI32 ∨ i = .open01F32 → r.res0.toNat < 2 ^ 32) ∧
    (i = .bool ∨ i = .bernoulli → r.res0 = 0#64 ∨ r.res0 = 1#64)

/-- R70 to R72, R63: a name stands for a command exactly when it is that command's mnemonic, or `NEXT` for U64 (in capitals only,
log entry 14); and every line the assembler takes is the word of the command its name stands for, with zero on every operand
bit that command does not read. (That a line's name is what stands before its first inner blank is log entry 14 too.) -/
def Obligations.AssembledLinesAreCommands : Prop :=
  (∀ (name : List Char) (i : Instr),
    instrOfName name = some i ↔ name = mnemonic i ∨ (name = "NEXT".toList ∧ i = .u64)) ∧
  ∀ (line : List Char) (c : AsmCommand), assembleLine line = some c →
    ∃ i, instrOfName ((trimBlanks line).span (· ≠ ' ')).1 = some i ∧ decode c.cmd = .ok i ∧
      c.cmd = (opcode i).setWidth 32 ∧ c.opa &&& opaBits i = c.opa ∧ c.opb &&& opbBits i = c.opb

/-- R70 to R72: every command, with any values of the operand bits it reads, is what some line under its own mnemonic assembles
to; and the example lines of R70, R71 and R72, with the operand values the programs of spec/95_test_vectors.md give them. -/
def Obligations.EveryCommandCanBeWritten : Prop :=
  (∀ (i : Instr) (a b : Word), a &&& opaBits i = a → b &&& opbBits i = b →
    ∃ line, ((trimBlanks line).span (· ≠ ' ')).1 = mnemonic i ∧
      assembleLine line = some { cmd := encode i, opa := a, opb := b }) ∧
  assembleLine "SEED 42".toList = some ⟨0x00000001#32, 42#64, 0#64⟩ ∧
  assembleLine "SEED 0xFFFFFFFFFFFFFFFFFFFFFFFFFFFFFFFF".toList =
    some ⟨0x00000001#32, 0xFFFFFFFFFFFFFFFF#64, 0xFFFFFFFFFFFFFFFF#64⟩ ∧
  assembleLine "LOADSTATE 0x1, 0x0".toList = some ⟨0x00000002#32, 1#64, 0#64⟩ ∧
  assembleLine "U64".toList = some ⟨0x00000012#32, 0#64, 0#64⟩ ∧
  assembleLine "NEXT".toList = some ⟨0x00000012#32, 0#64, 0#64⟩ ∧
  assembleLine "BERNOULLI 0.5".toList = some ⟨0x00000011#32, 0x3FE0000000000000#64, 0#64⟩ ∧
  assembleLine "BOUNDED_U32 10".toList = some ⟨0x00000016#32, 10#64, 0#64⟩ ∧
  assembleLine "RANGE_U64 10, 20".toList = some ⟨0x00000017#32, 10#64, 20#64⟩ ∧
  assembleLine "RANGE_I64 -5, 5".toList = some ⟨0x00000018#32, 0xFFFFFFFFFFFFFFFB#64, 5#64⟩ ∧
  assembleLine "RANGE_I32 -5, 5".toList = some ⟨0x0000001A#32, 0x00000000FFFFFFFB#64, 5#64⟩ ∧
  assembleLine "FILL 11".toList = some ⟨0x00000021#32, 11#64, 0#64⟩

/-! ### The mixing core (spec/40_mixing_core.md) -/

/-- R80, R81, R82: on an instance that has not faulted, SEED makes the three avalanche rounds of `{OPB, OPA}`, or the fallback
where all 128 bits of the result are zero, the state; it needs no earlier state. With the reference parameters seed 42
gives the state R81 names. -/
def Obligations.SeedConstructsTheMixedState : Prop :=
  (∀ s : State, s.current.fault = false →
    let round := fun v : Wide => (v * seedMult) ^^^ ((v * seedMult) >>> 64)
    let mixed := round (round (round (s.port.opb ++ s.port.opa)))
    let m := if mixed = 0#128 then seedFallback else mixed
    Executes .seed s ⟨m.extractLsb' 0 64, m.extractLsb' 64 64⟩ 0#64 0#64 []) ∧
  seedState refSeedMult refSeedFallback 42#128 = ⟨0xD114A242B6C8ACF5#64, 0x633164D57E273FBE#64⟩

/-- R83: the avalanche is a bijection for every odd multiplier and keeps 0, so the fallback is taken exactly for seed 0. -/
def Obligations.AvalancheIsABijection : Prop :=
  (∀ m : Wide, m.getLsbD 0 = true → Function.Bijective (mix128 m) ∧ mix128 m 0#128 = 0#128) ∧
  ∀ fallback seed : Wide,
    mixedSeed seedMult fallback seed = if seed = 0#128 then fallback else mix128 seedMult seed

/-- R84: exactly one seed mixes to the fallback, and it is not zero; SEED gives it and seed 0 the same state, and no other two
seeds. With the reference parameters it is the seed R84 names. -/
def Obligations.OneSeedSharesTheFallbackState : Prop :=
  (∃ z : Wide, z ≠ 0#128 ∧ (∀ v, mix128 seedMult v = seedFallback ↔ v = z) ∧
    ∀ a b, seedState seedMult seedFallback a = seedState seedMult seedFallback b ↔
      a = b ∨ (a = 0#128 ∧ b = z) ∨ (a = z ∧ b = 0#128)) ∧
  mix128 refSeedMult 0xBB093DA20AEA3A1367B371653750C904#128 = refSeedFallback

/-- R85: the output function in exact arithmetic, and its corner cases. -/
def Obligations.OutputFunction : Prop :=
  (∀ x y : Word, (out ⟨x, y⟩).toNat = (x.toNat * y.toNat % 2 ^ 64) ^^^ (x.toNat * y.toNat / 2 ^ 64)) ∧
  (∀ x : Word, out ⟨x, 0#64⟩ = 0#64) ∧ (∀ y : Word, out ⟨0#64, y⟩ = 0#64) ∧ (∀ y : Word, out ⟨1#64, y⟩ = y) ∧
  out ⟨0x100000000#64, 0x100000000#64⟩ = 1#64 ∧
  out ⟨0xFFFFFFFFFFFFFFFF#64, 0xFFFFFFFFFFFFFFFF#64⟩ = 0xFFFFFFFFFFFFFFFF#64 ∧
  ∀ x y : Word, out ⟨x, y⟩ = out ⟨y, x⟩

/-- R87: the reference recurrence is a bijection, linear over GF(2), and maps only the zero state to zero. -/
def Obligations.ReferenceAdvance : Prop :=
  Function.Bijective refAdvance ∧ (∀ g, refAdvance g = ⟨0#64, 0#64⟩ ↔ g = ⟨0#64, 0#64⟩) ∧
  (∀ a b : GenState, refAdvance ⟨a.x ^^^ b.x, a.y ^^^ b.y⟩ =
    ⟨(refAdvance a).x ^^^ (refAdvance b).x, (refAdvance a).y ^^^ (refAdvance b).y⟩) ∧
  refAdvance ⟨1#64, 0#64⟩ = ⟨0x0000000001010001#64, 0x0000002000000000#64⟩

/-- R89, R88: a value command changes the state held only by the draws it makes: as many as R63 gives it, none where it is
refused or the instance holds no state. -/
def Obligations.DrawsAreTheOnlyMutation : Prop :=
  ∀ (i : Instr) (s t : State), i.isValue = true → exec i s = .next t →
    t.current.xy =
      s.current.xy.map (iterate advance (if s.current.fault then 0 else drawsOf i s.port.opa))

/-- R91: LOADSTATE makes the operands the state, one zero word included, and faults ZERO_STATE when both are zero; the word
drawn from the state (1, 0) is 0. -/
def Obligations.LoadstateConstructsTheGivenState : Prop :=
  (∀ s : State, s.current.fault = false → ¬(s.port.opa = 0#64 ∧ s.port.opb = 0#64) →
    Executes .loadstate s ⟨s.port.opa, s.port.opb⟩ 0#64 0#64 []) ∧
  (∀ s : State, s.current.fault = false → s.port.opa = 0#64 → s.port.opb = 0#64 →
    Faults (exec .loadstate s) s .zeroState) ∧
  out ⟨1#64, 0#64⟩ = 0#64

/-- R92: RDSTATUS answers STATUS at every instance, faulted or not, seeded or not, and changes nothing. -/
def Obligations.RdstatusAnswersStatus : Prop :=
  ∀ s : State,
    Answers (exec .rdstatus s) s s.current
      { status := .ok
        res0 := BitVec.ofNat 64
          ((if s.current.seeded then 1 else 0) + (if s.current.fault then 2 else 0) + 16 * s.current.faultCode.toNat)
        res1 := 0#64
        bytes := [] }

/-- R93, R94: after the same successful SEED or LOADSTATE and then the same commands, two instances of any two platforms
that have not faulted return the same responses and reach the same state, whatever they held before. -/
def Obligations.SameConstructionSameResponses : Prop :=
  ∀ (s s' : State) (j k : Nat) (i : Instr) (a b : Word) (cs : List (CmdWord × Word × Word)),
    s.Inv → s'.Inv → instanceExists j = true → instanceExists k = true →
    (s.block j).fault = false → (s'.block k).fault = false →
    (i = .seed ∨ (i = .loadstate ∧ ¬(a = 0#64 ∧ b = 0#64))) →
    ∃ t t', run (cs.length + 1) { s with pending := commandsTo j ((encode i, a, b) :: cs) } = .next t ∧
      run (cs.length + 1) { s' with pending := commandsTo k ((encode i, a, b) :: cs) } = .next t' ∧
      t.block j = t'.block k ∧
      (t.responses.take (cs.length + 1)).map (·.2) = (t'.responses.take (cs.length + 1)).map (·.2)

/-! ### One-word conversions (spec/41_distribution.md) -/

/-- R102: `bnd32` in exact arithmetic, and its corner cases. -/
def Obligations.BoundedFunction : Prop :=
  (∀ (w : Word) (max : Half), (bnd32 w max).toNat = w.toNat * (max.toNat + 1) / 2 ^ 64) ∧
  (∀ w : Word, bnd32 w 0#32 = 0#32) ∧ (∀ w : Word, bnd32 w 0xFFFFFFFF#32 = w.extractLsb' 32 32) ∧
  (∀ max : Half, bnd32 0#64 max = 0#32) ∧ ∀ max : Half, bnd32 0xFFFFFFFFFFFFFFFF#64 max = max

/-- R105: the pattern of `open01_f64`: sign 0, exponent `1022 - z` where `z` counts the trailing zeros, fraction the top 52
bits; its corner cases. -/
def Obligations.OpenF64Pattern : Prop :=
  (∀ w : Word, ∃ z ≤ 64, (∀ j < z, w.getLsbD j = false) ∧ (z < 64 → w.getLsbD z = true) ∧
    (open01F64 w).toNat = (1022 - z) * 2 ^ 52 + w.toNat / 2 ^ 12 ∧
    (13 ≤ z → (open01F64 w).toNat % 2 ^ (z - 12) = 0)) ∧
  open01F64 0#64 = 0x3BE0000000000000#64 ∧ open01F64 1#64 = 0x3FE0000000000000#64 ∧
  open01F64 0xFFFFFFFFFFFFFFFF#64 = 0x3FEFFFFFFFFFFFFF#64

/-- R106: the pattern of `open01_f32`, built on the high half of the word alone; its corner cases. -/
def Obligations.OpenF32Pattern : Prop :=
  (∀ w : Word, ∃ z ≤ 32, (∀ j < z, w.getLsbD (32 + j) = false) ∧ (z < 32 → w.getLsbD (32 + z) = true) ∧
    (open01F32 w).toNat = (126 - z) * 2 ^ 23 + w.toNat / 2 ^ 41) ∧
  (∀ w w' : Word, w.toNat / 2 ^ 32 = w'.toNat / 2 ^ 32 → open01F32 w = open01F32 w') ∧
  open01F32 0x00000000FFFFFFFF#64 = 0x2F000000#32 ∧ open01F32 0xFFFFFFFF00000000#64 = 0x3F7FFFFF#32 ∧
  open01F32 0x0000000100000000#64 = 0x3F000000#32

/-- R107: the comparison of a Bernoulli trial, and every corner case the rule names: `p` of either zero, one, one half, above
one, below zero, infinite, NaN. (A finite `p` is a count of 2^-1074. For `p` outside [0, 1] see log entry 12,
for the count log entry 13.) -/
def Obligations.BernoulliComparison : Prop :=
  ∀ w : Word,
    (∀ p, bern w p = ltF64 (f64FromBits (open01F64 w)) p) ∧
    bern w (f64FromBits 0#64) = false ∧ bern w (f64FromBits 0x8000000000000000#64) = false ∧
    bern w (f64FromBits 0x3FF0000000000000#64) = true ∧
    bern w (f64FromBits 0x3FE0000000000000#64) = !w.getLsbD 0 ∧
    (∀ v : Int, 2 ^ 1074 < v → bern w (.finite v) = true) ∧ bern w (.inf false) = true ∧
    (∀ v : Int, v < 0 → bern w (.finite v) = false) ∧ bern w (.inf true) = false ∧ bern w .nan = false

/-- R108: every float result is a positive normal value strictly between 0 and 1, in the bounds and binades the rule gives
(binary64 in units of 2^-1074, binary32 in units of 2^-149, log entry 13). -/
def Obligations.FloatResultsInTheOpenInterval : Prop :=
  ∀ w : Word,
    (∃ v : Int, f64FromBits (open01F64 w) = .finite v ∧ 2 ^ (1074 - 65) ≤ v ∧ v ≤ 2 ^ 1074 - 2 ^ (1074 - 53) ∧
      (ctz64 w < 64 → 2 ^ (1074 - (ctz64 w + 1)) ≤ v ∧ v < 2 ^ (1074 - ctz64 w))) ∧
    (∃ v : Int, f32FromBits (open01F32 w) = .finite v ∧ 2 ^ (149 - 33) ≤ v ∧ v ≤ 2 ^ 149 - 2 ^ (149 - 24))

/-- R108: of the 2^64 words, 2^(63-k) have exactly `k` trailing zeros, which is the probability `2^-(k+1)`. -/
def Obligations.TrailingZeroCounts : Prop :=
  ∀ k : Nat, k < 64 → countWords (fun w => ctz64 w == k) = 2 ^ (63 - k)

/-- R109: the bounded and ranged results stay in their range, unsigned and signed, because the offset is below the span. -/
def Obligations.RangeContainment : Prop :=
  (∀ (w : Word) (s : Word), 1 ≤ s.toNat → (hi64 (mul128 w s)).toNat < s.toNat) ∧
  (∀ (w : Word) (max : Half), (bnd32 w max).toNat ≤ max.toNat) ∧
  (∀ w lo hi : Word, lo.toNat ≤ hi.toNat →
    lo.toNat ≤ (range64 w lo hi).toNat ∧ (range64 w lo hi).toNat ≤ hi.toNat) ∧
  (∀ w lo hi : Word, lo.toInt ≤ hi.toInt →
    lo.toInt ≤ (range64 w lo hi).toInt ∧ (range64 w lo hi).toInt ≤ hi.toInt) ∧
  (∀ (w : Word) (lo hi : Half), lo.toNat ≤ hi.toNat →
    lo.toNat ≤ (range32 w lo hi).toNat ∧ (range32 w lo hi).toNat ≤ hi.toNat) ∧
  ∀ (w : Word) (lo hi : Half), lo.toInt ≤ hi.toInt →
    lo.toInt ≤ (range32 w lo hi).toInt ∧ (range32 w lo hi).toInt ≤ hi.toInt

/-- R110: in a span of `s`, the number of words that give the offset `k` is a difference of ceilings, one of two neighbouring
and the same for every offset only when `s` divides 2^64. (The pairs `lo > hi`, unsigned
or signed, are log entry 12.) -/
def Obligations.MultiplyHighBias : Prop :=
  let counts : Nat → (Nat → Word → Bool) → Prop := fun s gives =>
    (∀ k, k < s →
      countWords (gives k) = ((k + 1) * 2 ^ 64 + s - 1) / s - (k * 2 ^ 64 + s - 1) / s ∧
      (countWords (gives k) = 2 ^ 64 / s ∨ countWords (gives k) = (2 ^ 64 + s - 1) / s)) ∧
    ((∀ k, k < s → countWords (gives k) = countWords (gives 0)) → s ∣ 2 ^ 64)
  (∀ max : Half, counts (max.toNat + 1) (fun k w => bnd32 w max == BitVec.ofNat 32 k)) ∧
  (∀ lo hi : Half, counts ((hi - lo).toNat + 1) (fun k w => range32 w lo hi == lo + BitVec.ofNat 32 k)) ∧
  ∀ lo hi : Word, counts ((hi - lo).toNat + 1) (fun k w => range64 w lo hi == lo + BitVec.ofNat 64 k)

/-- R100, R111: on a ready instance BOOL draws one word and returns its top bit. -/
def Obligations.BoolReturnsTheTopBit : Prop :=
  ∀ (s : State) (g : GenState), s.Ready g →
    Executes .bool s (advance g) (if 2 ^ 63 ≤ (out g).toNat then 1#64 else 0#64) 0#64 []

/-- R112: on a ready instance BERNOULLI draws one word, whatever `p` is, and returns whether the float of the word is below
`p = f64_from_bits(OPA)`; for `p` outside [0, 1] see log entry 12. -/
def Obligations.BernoulliReturnsTheTrial : Prop :=
  ∀ (s : State) (g : GenState), s.Ready g →
    Executes .bernoulli s (advance g)
      (if ltF64 (f64FromBits (open01F64 (out g))) (f64FromBits s.port.opa) then 1#64 else 0#64) 0#64 []

/-- R113 to R116, R101: on a ready instance U64 and I64 draw one word and return it unchanged, U32 and I32 draw one word and
return its high half, zero-extended. -/
def Obligations.WordCommandsReturnTheWord : Prop :=
  ∀ (s : State) (g : GenState), s.Ready g →
    Executes .u64 s (advance g) (out g) 0#64 [] ∧ Executes .i64 s (advance g) (out g) 0#64 [] ∧
    Executes .u32 s (advance g) (BitVec.ofNat 64 ((out g).toNat / 2 ^ 32)) 0#64 [] ∧
    Executes .i32 s (advance g) (BitVec.ofNat 64 ((out g).toNat / 2 ^ 32)) 0#64 []

/-- R117: on a ready instance BOUNDED_U32 draws one word `w` and returns `w * (max + 1) / 2^64` for `max = OPA[31:0]`, every
`max` included. -/
def Obligations.BoundedReturnsTheScaledWord : Prop :=
  ∀ (s : State) (g : GenState), s.Ready g →
    Executes .boundedU32 s (advance g)
      (BitVec.ofNat 64 ((out g).toNat * (s.port.opa.toNat % 2 ^ 32 + 1) / 2 ^ 64)) 0#64 []

/-- R103, R118: on a ready instance RANGE_U64 draws one word `w` and returns the raw word for the full span, else
`lo + w * (hi - lo + 1) / 2^64` with the distance and the sum wrapping; exactly that for `lo ≤ hi`, and `lo` for `lo = hi`;
for `lo > hi` see log entry 12. -/
def Obligations.RangeU64ReturnsTheScaledWord : Prop :=
  ∀ (s : State) (g : GenState), s.Ready g →
    ∃ v : Word, Executes .rangeU64 s (advance g) v 0#64 [] ∧
      (s.port.opb - s.port.opa = 0xFFFFFFFFFFFFFFFF#64 → v = out g) ∧
      (s.port.opb - s.port.opa ≠ 0xFFFFFFFFFFFFFFFF#64 →
        v = s.port.opa + BitVec.ofNat 64 ((out g).toNat * ((s.port.opb - s.port.opa).toNat + 1) / 2 ^ 64)) ∧
      (s.port.opa.toNat ≤ s.port.opb.toNat →
        v.toNat = s.port.opa.toNat + (out g).toNat * (s.port.opb.toNat - s.port.opa.toNat + 1) / 2 ^ 64) ∧
      (s.port.opa = s.port.opb → v = s.port.opa)

/-- R103, R119: RANGE_I64 runs the same datapath on the two's-complement patterns: for signed `lo ≤ hi` that are not the full
span the value is `lo + w * (hi - lo + 1) / 2^64` in ℤ, and for the full span the raw word; for `lo > hi` see log entry 12. -/
def Obligations.RangeI64ReturnsTheScaledWord : Prop :=
  ∀ (s : State) (g : GenState), s.Ready g →
    ∃ v : Word, Executes .rangeI64 s (advance g) v 0#64 [] ∧
      (s.port.opb - s.port.opa = 0xFFFFFFFFFFFFFFFF#64 → v = out g) ∧
      (s.port.opb - s.port.opa ≠ 0xFFFFFFFFFFFFFFFF#64 →
        v = s.port.opa + BitVec.ofNat 64 ((out g).toNat * ((s.port.opb - s.port.opa).toNat + 1) / 2 ^ 64)) ∧
      (s.port.opa.toInt ≤ s.port.opb.toInt → s.port.opb - s.port.opa ≠ 0xFFFFFFFFFFFFFFFF#64 →
        v.toInt = s.port.opa.toInt + ((out g).toNat : Int) * (s.port.opb.toInt - s.port.opa.toInt + 1) / 2 ^ 64)

/-- R104, R120: on a ready instance RANGE_U32 draws one word `w` and returns `lo + w * (hi - lo + 1) / 2^64` in 32 bits for
`lo = OPA[31:0]`, `hi = OPB[31:0]`, with no wrap for `lo ≤ hi`; for `lo > hi` see log entry 12. -/
def Obligations.RangeU32ReturnsTheScaledWord : Prop :=
  ∀ (s : State) (g : GenState), s.Ready g →
    let lo := s.port.opa.toNat % 2 ^ 32
    let hi := s.port.opb.toNat % 2 ^ 32
    let d := (hi + 2 ^ 32 - lo) % 2 ^ 32
    ∃ v : Word, Executes .rangeU32 s (advance g) v 0#64 [] ∧
      v.toNat = (lo + (out g).toNat * (d + 1) / 2 ^ 64) % 2 ^ 32 ∧
      (lo ≤ hi → v.toNat = lo + (out g).toNat * (hi - lo + 1) / 2 ^ 64)

/-- R104, R121: RANGE_I32 runs the same datapath on the two's-complement patterns and zero-extends the result; for signed
`lo ≤ hi` its low half is `lo + w * (hi - lo + 1) / 2^64` in ℤ; for `lo > hi` see log entry 12. -/
def Obligations.RangeI32ReturnsTheScaledWord : Prop :=
  ∀ (s : State) (g : GenState), s.Ready g →
    let lo := s.port.opa.setWidth 32
    let hi := s.port.opb.setWidth 32
    ∃ v : Word, Executes .rangeI32 s (advance g) v 0#64 [] ∧
      v.toNat = (lo.toNat + (out g).toNat * ((hi - lo).toNat + 1) / 2 ^ 64) % 2 ^ 32 ∧
      (lo.toInt ≤ hi.toInt →
        (v.setWidth 32).toInt = lo.toInt + ((out g).toNat : Int) * (hi.toInt - lo.toInt + 1) / 2 ^ 64)

/-- R122, R123: on a ready instance OPEN01_F64 and OPEN01_F32 draw one word and return the patterns of R105 and R106. -/
def Obligations.OpenCommandsReturnTheFloats : Prop :=
  ∀ (s : State) (g : GenState), s.Ready g →
    Executes .open01F64 s (advance g)
      (BitVec.ofNat 64 ((1022 - ctz64 (out g)) * 2 ^ 52 + (out g).toNat / 2 ^ 12)) 0#64 [] ∧
    Executes .open01F32 s (advance g)
      (BitVec.ofNat 64 ((126 - ctz32 ((out g).extractLsb' 32 32)) * 2 ^ 23 + (out g).toNat / 2 ^ 41)) 0#64 []

/-! ### SPLIT and FILL (spec/42_split_fill.md, spec/20_memory.md) -/

/-- R140: on a ready instance SPLIT draws two words and returns the first, forced odd, and the second; the parent keeps the
state its two draws leave. -/
def Obligations.SplitReturnsTheChild : Prop :=
  ∀ (s : State) (g : GenState), s.Ready g →
    Executes .split s (advance (advance g)) (out g ||| 1#64) (out (advance g)) []

/-- R141, R142: the child a SPLIT returns is never all zero, and a LOADSTATE of it, at any instance that has not faulted,
installs exactly it. -/
def Obligations.SplitChildCanBeLoaded : Prop :=
  ∀ (s t : State) (g : GenState) (r : Response), s.Ready g → exec .split s = .next t →
    t.responses = (s.port.target, r) :: s.responses →
    r.res0.getLsbD 0 = true ∧
    ∀ s' : State, s'.current.fault = false → s'.port.opa = r.res0 → s'.port.opb = r.res1 →
      Executes .loadstate s' ⟨r.res0, r.res1⟩ 0#64 0#64 []

/-- R41, R144, R145, R146: on a ready instance FILL of `n = OPA` bytes, any `n`, draws `ceil(n / 8)` words and returns exactly
`n` bytes, byte `i` being byte `i mod 8`, least significant first, of word `i / 8`. -/
def Obligations.FillReturnsTheBytes : Prop :=
  ∀ (s : State) (g : GenState), s.Ready g →
    let n := s.port.opa.toNat
    ∃ bs : List Byte, Executes .fill s (iterate advance ((n + 7) / 8) g) 0#64 0#64 bs ∧ bs.length = n ∧
      ∀ i, i < n → bs[i]? = some ((out (iterate advance (i / 8) g)).extractLsb' (8 * (i % 8)) 8)

/-- R147: FILL of no bytes on a ready instance draws nothing, returns nothing and leaves the state. -/
def Obligations.EmptyFillIsANoOp : Prop :=
  ∀ (s : State) (g : GenState), s.Ready g → s.port.opa = 0#64 → Executes .fill s g 0#64 0#64 []

/-- R148, R54: a FILL of `8k + r` bytes returns the first `8k + r` little-endian bytes of the words that `k` U64 commands,
and one more where `r` is not 0, return from the same state, and leaves the same state. -/
def Obligations.FillStreamsTheWordsOfU64 : Prop :=
  ∀ (s : State) (j k r : Nat) (g : GenState), instanceExists j = true → (s.block j).fault = false →
    (s.block j).xy = some g → r < 8 → 8 * k + r < 2 ^ 64 →
    let words := if r = 0 then k else k + 1
    ∃ t t' bs,
      run words { s with pending := List.replicate words (.command j 0x00000012#32 0#64 0#64) } = .next t ∧
      run 1 { s with pending := [.command j 0x00000021#32 (BitVec.ofNat 64 (8 * k + r)) 0#64] } = .next t' ∧
      t'.block j = t.block j ∧
      t'.responses = (j, { status := .ok, res0 := 0#64, res1 := 0#64, bytes := bs }) :: s.responses ∧
      bs = ((t.responses.take words).reverse.flatMap
        (fun e => (List.range 8).map (fun i => e.2.res0.extractLsb' (8 * i) 8))).take (8 * k + r)

/-- R42: the host's stores after a FILL put byte `i` at `dst + i`, for every byte and nothing else. -/
def Obligations.HostStoresTheBytes : Prop :=
  ∀ (dst : Nat) (bs : List Byte), (hostWrites dst bs).length = bs.length ∧
    ∀ (i : Nat) (b : Byte), bs[i]? = some b → (hostWrites dst bs)[i]? = some (dst + i, b)

/-! ### Faults (spec/60_exceptions.md) -/

/-- R165, R90: a value command at an instance that holds no state faults UNSEEDED, FILL of no bytes included. -/
def Obligations.UnseededValueCommandFaults : Prop :=
  ∀ (i : Instr) (s : State), i.isValue = true → s.current.fault = false → s.current.xy = none →
    Faults (exec i s) s .unseeded

/-- R168: while `FAULT = 1` every command but RDSTATUS, illegal words included, changes no instance and answers FAULTED with
nothing on the buses; and only a reset of the instance leaves this condition. -/
def Obligations.FaultedInstanceRefuses : Prop :=
  (∀ (w : CmdWord) (s : State), decode w ≠ .ok .rdstatus → s.current.fault = true →
    Answers (execWord w s) s s.current { status := .faulted, res0 := 0#64, res1 := 0#64, bytes := [] }) ∧
  ∀ (s t : State) (k : Nat), step s = .next t → (s.block k).fault = true → (t.block k).fault = false →
    s.pending.head? = some (.reset k)

/-- R164: which status a word returns where several apply: RDSTATUS, then the refusal, then ILLEGAL, UNSEEDED, ZERO_STATE. -/
def Obligations.OrderOfChecks : Prop :=
  ∀ (w : CmdWord) (s : State), ∃ t r, execWord w s = .next t ∧ t.responses = (s.port.target, r) :: s.responses ∧
    (decode w = .ok .rdstatus → r.status = .ok) ∧
    (decode w ≠ .ok .rdstatus → s.current.fault = true → r.status = .faulted) ∧
    (s.current.fault = false → (∀ i, decode w ≠ .ok i) → r.status = .fault .illegal) ∧
    (∀ i, s.current.fault = false → decode w = .ok i → i.isValue = true → s.current.xy = none →
      r.status = .fault .unseeded) ∧
    (s.current.fault = false → decode w = .ok .loadstate → s.port.opa = 0#64 → s.port.opb = 0#64 →
      r.status = .fault .zeroState) ∧
    (∀ i, s.current.fault = false → decode w = .ok i → (i.isValue = true → s.current.xy ≠ none) →
      (i = .loadstate → ¬(s.port.opa = 0#64 ∧ s.port.opb = 0#64)) → r.status = .ok)

/-! ### The platform (spec/20_memory.md, spec/60_exceptions.md, spec/70_reset_and_hazards.md) -/

/-- R196, R60, R173: every command, whatever the state and the operands, completes with one response, and touches no instance
but the one it was issued to. -/
def Obligations.EveryCommandAnswers : Prop := ∀ (i : Instr) (s : State), ∃ b r, Answers (exec i s) s b r

/-- R60, R62, R166: when the host's next event issues any word to an instance the platform holds, a step is `execWord` of that word
with that instance and those operand buses at the port and the event gone; where the word decodes to `i` that is `exec` of `i`,
and where it decodes to no command it is the refusal of a faulted instance or the ILLEGAL fault. (The list of events is log
entry 5.) -/
def Obligations.StepRunsTheDecodedCommand : Prop :=
  ∀ (s : State) (k : Nat) (w : CmdWord) (a b : Word) (rest : List HostEvent),
    s.pending = .command k w a b :: rest → instanceExists k = true →
    let u : State := { s with pending := rest, port := { target := k, opa := a, opb := b } }
    step s = execWord w u ∧
    (∀ i, decode w = .ok i → step s = exec i u) ∧
    ((∀ i, decode w ≠ .ok i) → (s.block k).fault = true →
      Answers (step s) u u.current { status := .faulted, res0 := 0#64, res1 := 0#64, bytes := [] }) ∧
    ((∀ i, decode w ≠ .ok i) → (s.block k).fault = false → Faults (step s) u .illegal)

/-- The model's own: with nothing to come the platform holds its state (log entry 10, after R177), and an event for an
instance the platform does not hold stops the model (log entry 11). -/
def Obligations.IdleAndAbsentInstance : Prop :=
  (∀ s : State, s.pending = [] → step s = .next s) ∧
  ∀ (s : State) (e : HostEvent) (rest : List HostEvent), s.pending = e :: rest → instanceExists e.target = false →
    step s = .fault (.noSuchInstance e.target)

/-- R46, R48, R191: a step takes exactly the first event: a command returns one response, a reset none. (The list of events is
log entry 5.) -/
def Obligations.EachStepTakesOneEvent : Prop :=
  ∀ (s t : State) (e : HostEvent) (rest : List HostEvent), s.pending = e :: rest → step s = .next t →
    t.pending = rest ∧
    (∀ k, e = .reset k → t.responses = s.responses) ∧
    (∀ k w a b, e = .command k w a b → ∃ r, t.responses = (k, r) :: s.responses)

/-- R49, R173: what an instance becomes and answers over a whole run never depends on the events of other instances: it is
the same with those events taken out. -/
def Obligations.InstancesAreIsolated : Prop :=
  ∀ (s t : State) (k : Nat), run s.pending.length s = .next t →
    ∃ t', run (s.onlyEventsOf k).pending.length (s.onlyEventsOf k) = .next t' ∧
      t'.block k = t.block k ∧ t'.responsesOf k = t.responsesOf k
end

