-- ==== Sys2Proof/Laws/Assembler.lean ====
section
/-! SUPPORT. What the assembler's parts do on text without blanks or commas, and how a value is written in hex digits. -/

namespace Sys2Proof.Machine

/-! ### Integer operands -/

theorem eq_true_of_filter_eq_some {o : Option Nat} {p : Nat → Bool} {v : Nat} (h : o.filter p = some v) : p v = true := by
  cases o with
  | none => cases h
  | some x =>
    simp only [Option.filter_some] at h
    split at h
    · cases h; assumption
    · cases h

/-- An integer operand is a pattern of its width. -/
theorem intOperand_lt {signed : Bool} {width : Nat} {text : List Char} {v : Nat}
    (h : intOperand signed width text = some v) : v < 2 ^ width := by
  unfold intOperand at h
  split at h
  · simpa using eq_true_of_filter_eq_some h
  · split at h
    · obtain ⟨a, -, rfl⟩ := Option.map_eq_some_iff.1 h
      exact Nat.mod_lt _ (Nat.two_pow_pos _)
    · cases h
    · have := eq_true_of_filter_eq_some h
      rw [decide_eq_true_eq] at this
      exact lt_of_lt_of_le this (Nat.pow_le_pow_right (by norm_num) (Nat.sub_le _ _))
    · simpa using eq_true_of_filter_eq_some h

/-! ### Blanks and commas -/

/-- A character that stands inside a name or an operand. -/
def isInner (c : Char) : Bool := c != ' ' && c != ','

theorem ne_blank_of_isInner {c : Char} (h : isInner c = true) : c ≠ ' ' := by rintro rfl; exact absurd h (by decide)

theorem ne_comma_of_isInner {c : Char} (h : isInner c = true) : c ≠ ',' := by rintro rfl; exact absurd h (by decide)

theorem trimBlanks_of_ends {l : List Char} (h₁ : ∀ c, l.head? = some c → c ≠ ' ') (h₂ : ∀ c, l.getLast? = some c → c ≠ ' ') :
    trimBlanks l = l := by
  have drop : ∀ m : List Char, (∀ c, m.head? = some c → c ≠ ' ') → m.dropWhile (· = ' ') = m := by
    intro m hm
    cases m with
    | nil => rfl
    | cons c m => simp [List.dropWhile, hm c rfl]
  unfold trimBlanks
  rw [drop l h₁, drop l.reverse (fun c hc => h₂ c (by rwa [List.head?_reverse] at hc)), List.reverse_reverse]

theorem trimBlanks_of_no_blank {l : List Char} (h : ∀ c ∈ l, c ≠ ' ') : trimBlanks l = l :=
  trimBlanks_of_ends (fun c hc => h c (List.mem_of_mem_head? hc)) (fun c hc => h c (List.mem_of_getLast? hc))

theorem trimBlanks_blank_cons {l : List Char} (h : ∀ c ∈ l, c ≠ ' ') : trimBlanks (' ' :: l) = l := by
  have := trimBlanks_of_no_blank h
  unfold trimBlanks at this ⊢
  rw [List.dropWhile_cons_of_pos (by decide)]
  exact this

theorem span_blank {name rest : List Char} (h : ∀ c ∈ name, c ≠ ' ') :
    (name ++ ' ' :: rest).span (· ≠ ' ') = (name, ' ' :: rest) := by
  have e : ∀ c ∈ name, decide (c ≠ ' ') = true := fun c hc => decide_eq_true (h c hc)
  rw [List.span_eq_takeWhile_dropWhile, List.takeWhile_append_of_pos e, List.dropWhile_append_of_pos e]
  simp

theorem splitCommas_of_no_comma {l : List Char} (h : ∀ c ∈ l, c ≠ ',') : splitCommas l = [l] := by
  induction l with
  | nil => rfl
  | cons c l ih =>
    rw [splitCommas, if_neg (h c List.mem_cons_self), ih (fun d hd => h d (List.mem_cons_of_mem _ hd))]

theorem splitCommas_append {l rest : List Char} (h : ∀ c ∈ l, c ≠ ',') :
    splitCommas (l ++ ',' :: rest) = l :: splitCommas rest := by
  induction l with
  | nil => rw [List.nil_append, splitCommas, if_pos rfl]
  | cons c l ih =>
    rw [List.cons_append, splitCommas, if_neg (h c List.mem_cons_self), ih (fun d hd => h d (List.mem_cons_of_mem _ hd))]

theorem mnemonic_isInner (i : Instr) : ∀ c ∈ mnemonic i, isInner c = true := by
  have : (mnemonic i).all isInner = true := by cases i <;> decide
  exact List.all_eq_true.1 this

/-! ### Hex digits -/

/-- `v` in `k` hex digits, the most significant first. -/
def hexDigits : Nat → Nat → List Char
  | 0, _ => []
  | k + 1, v => Nat.digitChar (v / 16 ^ k % 16) :: hexDigits k v

@[simp] theorem hexDigits_length (k v : Nat) : (hexDigits k v).length = k := by
  induction k with
  | zero => rfl
  | succ k ih => rw [hexDigits, List.length_cons, ih]

theorem digitOf_digitChar : ∀ d < 16, digitOf 16 (Nat.digitChar d) = some d ∧ isInner (Nat.digitChar d) = true := by decide

theorem hexDigits_isInner (k v : Nat) : ∀ c ∈ hexDigits k v, isInner c = true := by
  induction k with
  | zero => exact fun c hc => absurd hc List.not_mem_nil
  | succ k ih =>
    intro c hc
    rcases List.mem_cons.1 hc with rfl | hc
    · exact (digitOf_digitChar _ (Nat.mod_lt _ (by norm_num))).2
    · exact ih c hc

theorem digitsFrom_hexDigits (k v acc : Nat) : digitsFrom 16 acc (hexDigits k v) = some (acc * 16 ^ k + v % 16 ^ k) := by
  induction k generalizing acc with
  | zero => simp [hexDigits, digitsFrom, Nat.mod_one]
  | succ k ih =>
    rw [hexDigits, digitsFrom, (digitOf_digitChar _ (Nat.mod_lt _ (by norm_num))).1]
    simp only [ih, Option.some.injEq]
    rw [pow_succ, Nat.mod_mul]
    ring

theorem digits_hexDigits {k v : Nat} (h : v < 16 ^ (k + 1)) : digits 16 (hexDigits (k + 1) v) = some v := by
  refine (digitsFrom_hexDigits (k + 1) v 0).trans ?_
  rw [Nat.mod_eq_of_lt h, Nat.zero_mul, Nat.zero_add]

/-- An integer operand of a width of whole hex digits, written with all of them, is its value. -/
theorem intOperand_hexDigits (signed : Bool) {width k v : Nat} (hw : width = 4 * (k + 1)) (hv : v < 2 ^ width) :
    intOperand signed width ('0' :: 'x' :: hexDigits (k + 1) v) = some v := by
  have e : 2 ^ width = 16 ^ (k + 1) := by rw [hw, pow_mul]; norm_num
  unfold intOperand
  simp only [digits_hexDigits (e ▸ hv)]
  simp [hv]

/-- A BERNOULLI operand of 16 hex digits is its pattern. -/
theorem probOperand_hexDigits {v : Nat} (hv : v < 2 ^ 64) : probOperand ('0' :: 'x' :: hexDigits 16 v) = some v := by
  unfold probOperand
  simp only [hexDigits_length, if_true]
  exact digits_hexDigits (k := 15) (by simpa using hv)

end Sys2Proof.Machine
end

