-- ==== Sys2Proof/Laws/State.lean ====
section
/-! SUPPORT. One lemma per field per update of State, so that no proof unfolds a record update. -/

namespace Sys2Proof.Machine

variable (s : State) (k : Nat) (b : Block) (r : Response) (c : FaultKind) (g : GenState) (u v : Word)

@[simp] theorem State.setBlock_blocks : (s.setBlock k b).blocks = storeBlock k b s.blocks := rfl
@[simp] theorem State.setBlock_port : (s.setBlock k b).port = s.port := rfl
@[simp] theorem State.setBlock_pending : (s.setBlock k b).pending = s.pending := rfl
@[simp] theorem State.setBlock_responses : (s.setBlock k b).responses = s.responses := rfl

@[simp] theorem State.setCurrent_blocks : (s.setCurrent b).blocks = storeBlock s.port.target b s.blocks := rfl
@[simp] theorem State.setCurrent_port : (s.setCurrent b).port = s.port := rfl
@[simp] theorem State.setCurrent_pending : (s.setCurrent b).pending = s.pending := rfl
@[simp] theorem State.setCurrent_responses : (s.setCurrent b).responses = s.responses := rfl

@[simp] theorem State.respond_blocks : (s.respond r).blocks = s.blocks := rfl
@[simp] theorem State.respond_port : (s.respond r).port = s.port := rfl
@[simp] theorem State.respond_pending : (s.respond r).pending = s.pending := rfl
@[simp] theorem State.respond_responses : (s.respond r).responses = (s.port.target, r) :: s.responses := rfl
@[simp] theorem State.respond_block : (s.respond r).block k = s.block k := rfl
@[simp] theorem State.respond_current : (s.respond r).current = s.current := rfl

@[simp] theorem State.issue_blocks : (s.issue k u v).blocks = s.blocks := rfl
@[simp] theorem State.issue_port : (s.issue k u v).port = ⟨k, u, v⟩ := rfl
@[simp] theorem State.issue_pending : (s.issue k u v).pending = s.pending := rfl
@[simp] theorem State.issue_responses : (s.issue k u v).responses = s.responses := rfl
@[simp] theorem State.issue_block (j : Nat) : (s.issue k u v).block j = s.block j := rfl
@[simp] theorem State.issue_current : (s.issue k u v).current = s.block k := rfl

@[simp] theorem State.refuse_blocks : s.refuse.blocks = s.blocks := rfl
@[simp] theorem State.refuse_port : s.refuse.port = s.port := rfl
@[simp] theorem State.refuse_pending : s.refuse.pending = s.pending := rfl
@[simp] theorem State.refuse_responses : s.refuse.responses = (s.port.target, Response.refused) :: s.responses := rfl
@[simp] theorem State.refuse_block : s.refuse.block k = s.block k := rfl
@[simp] theorem State.refuse_current : s.refuse.current = s.current := rfl

@[simp] theorem Block.holding_xy : (b.holding g).xy = some g := rfl
@[simp] theorem Block.holding_fault : (b.holding g).fault = b.fault := rfl
@[simp] theorem Block.holding_faultCode : (b.holding g).faultCode = b.faultCode := rfl
@[simp] theorem Block.holding_seeded : (b.holding g).seeded = true := rfl

@[simp] theorem State.raise_port : (s.raise c).port = s.port := rfl
@[simp] theorem State.raise_pending : (s.raise c).pending = s.pending := rfl
@[simp] theorem State.raise_responses :
    (s.raise c).responses = (s.port.target, Response.ofFault c) :: s.responses := rfl

@[simp] theorem State.construct_port : (s.construct g).port = s.port := rfl
@[simp] theorem State.construct_pending : (s.construct g).pending = s.pending := rfl
@[simp] theorem State.construct_responses :
    (s.construct g).responses = (s.port.target, Response.value 0#64) :: s.responses := rfl

@[simp] theorem State.resetBlock_blocks : (s.resetBlock k).blocks = storeBlock k Block.reset s.blocks := rfl
@[simp] theorem State.resetBlock_port : (s.resetBlock k).port = s.port := rfl
@[simp] theorem State.resetBlock_pending : (s.resetBlock k).pending = s.pending := rfl
@[simp] theorem State.resetBlock_responses : (s.resetBlock k).responses = s.responses := rfl

@[simp] theorem State.popped_block (rest : List HostEvent) (j : Nat) :
    ({ s with pending := rest } : State).block j = s.block j := rfl
@[simp] theorem State.ported_block (p : Port) (j : Nat) : ({ s with port := p } : State).block j = s.block j := rfl

theorem State.current_eq : s.current = s.block s.port.target := rfl

end Sys2Proof.Machine
end

