-- ==== Sys2Proof/Laws/Ops.lean ====
section
/-! SUPPORT. What each shared operation does, once: reading an instance after writing one, the canonical form of the list of
instances, and the answers of the operations every meaning is written over. -/

namespace Sys2Proof.Machine

/-! ### The list of instances -/

theorem lookupBlock_insertBlock (k j : Nat) (b : Block) (l : List (Nat × Block)) (h : ∀ e ∈ l, e.1 ≠ k) :
    lookupBlock j (insertBlock k b l) = if j = k then b else lookupBlock j l := by
  induction l with
  | nil => simp [insertBlock, lookupBlock, eq_comm]
  | cons e l ih =>
    have he : e.1 ≠ k := h e (by simp)
    have ih' := ih (fun e' h' => h e' (by simp [h']))
    by_cases hj : j = k
    · subst hj
      by_cases hlt : j < e.1
      · simp [insertBlock, lookupBlock, hlt]
      · simp only [if_true] at ih'
        simp [insertBlock, lookupBlock, hlt, he, ih']
    · simp only [hj, if_false] at ih'
      by_cases hlt : k < e.1
      · simp [insertBlock, lookupBlock, hlt, hj, Ne.symm hj]
      · simp [insertBlock, lookupBlock, hlt, hj, ih']

theorem lookupBlock_filter_ne (k j : Nat) (l : List (Nat × Block)) :
    lookupBlock j (l.filter (fun e => e.1 != k)) = if j = k then Block.reset else lookupBlock j l := by
  induction l with
  | nil => simp [lookupBlock]
  | cons e l ih =>
    by_cases he : e.1 = k
    · have : (e.1 != k) = false := by simp [he]
      rw [List.filter_cons_of_neg (by simp [he]), ih]
      by_cases hj : j = k
      · simp [hj]
      · have : e.1 ≠ j := fun h => hj (h ▸ he)
        simp [hj, lookupBlock, this]
    · rw [List.filter_cons_of_pos (by simp [he])]
      by_cases hj : j = k
      · subst hj
        simp only [if_true] at ih
        simp [lookupBlock, he, ih]
      · simp only [hj, if_false] at ih
        simp [lookupBlock, hj, ih]

theorem lookupBlock_storeBlock (k j : Nat) (b : Block) (l : List (Nat × Block)) :
    lookupBlock j (storeBlock k b l) = if j = k then b else lookupBlock j l := by
  unfold storeBlock
  by_cases hb : b = Block.reset
  · simp [hb, lookupBlock_filter_ne]
  · rw [if_neg hb, lookupBlock_insertBlock _ _ _ _ (by simp), lookupBlock_filter_ne]
    by_cases hj : j = k <;> simp [hj]

/-- Reading an instance after writing one. -/
theorem State.block_setBlock (s : State) (k j : Nat) (b : Block) :
    (s.setBlock k b).block j = if j = k then b else s.block j :=
  lookupBlock_storeBlock k j b s.blocks

@[simp] theorem State.block_setBlock_self (s : State) (k : Nat) (b : Block) : (s.setBlock k b).block k = b := by
  simp [State.block_setBlock]

@[simp] theorem State.block_setBlock_of_ne (s : State) {k j : Nat} (b : Block) (h : j ≠ k) :
    (s.setBlock k b).block j = s.block j := by
  simp [State.block_setBlock, h]

@[simp] theorem State.setCurrent_current (s : State) (b : Block) : (s.setCurrent b).current = b := by
  simp [State.setCurrent, State.current]

@[simp] theorem State.setCurrent_block_of_ne (s : State) {j : Nat} (b : Block) (h : j ≠ s.port.target) :
    (s.setCurrent b).block j = s.block j := by
  simp [State.setCurrent, h]

theorem State.setCurrent_block (s : State) (j : Nat) (b : Block) :
    (s.setCurrent b).block j = if j = s.port.target then b else s.block j :=
  State.block_setBlock s s.port.target j b

theorem mem_insertBlock {k : Nat} {b : Block} {l : List (Nat × Block)} {e : Nat × Block} :
    e ∈ insertBlock k b l ↔ e = (k, b) ∨ e ∈ l := by
  induction l with
  | nil => simp [insertBlock]
  | cons a l ih =>
    by_cases h : k < a.1
    · simp [insertBlock, h]
    · simp only [insertBlock, h, if_false, List.mem_cons, ih]
      tauto

/-- An entry after a write is the one written or an earlier one of another instance. -/
theorem mem_storeBlock {k : Nat} {b : Block} {l : List (Nat × Block)} {e : Nat × Block} (h : e ∈ storeBlock k b l) :
    (e = (k, b) ∧ b ≠ Block.reset) ∨ (e ∈ l ∧ e.1 ≠ k) := by
  unfold storeBlock at h
  by_cases hb : b = Block.reset
  · rw [if_pos hb] at h
    simp only [List.mem_filter, bne_iff_ne] at h
    exact Or.inr h
  · rw [if_neg hb, mem_insertBlock] at h
    simp only [List.mem_filter, bne_iff_ne] at h
    exact h.imp (fun h => ⟨h, hb⟩) id

theorem pairwise_insertBlock {k : Nat} {b : Block} {l : List (Nat × Block)} (h : l.Pairwise (fun a b => a.1 < b.1))
    (hk : ∀ e ∈ l, e.1 ≠ k) : (insertBlock k b l).Pairwise (fun a b => a.1 < b.1) := by
  induction l with
  | nil => simp [insertBlock]
  | cons e l ih =>
    rw [List.pairwise_cons] at h
    by_cases hlt : k < e.1
    · simp only [insertBlock, hlt, if_true, List.pairwise_cons, List.mem_cons]
      exact ⟨by rintro a (rfl | ha); exacts [hlt, lt_trans hlt (h.1 a ha)], h⟩
    · simp only [insertBlock, hlt, if_false, List.pairwise_cons, mem_insertBlock]
      refine ⟨?_, ih h.2 (fun a ha => hk a (by simp [ha]))⟩
      rintro a (rfl | ha)
      · have := hk e (by simp)
        simp only
        omega
      · exact h.1 a ha

/-- A write keeps the canonical form. -/
theorem canonical_storeBlock {k : Nat} {b : Block} {l : List (Nat × Block)} (h : Canonical l) :
    Canonical (storeBlock k b l) := by
  refine ⟨?_, fun e he => ?_⟩
  · have hf : (l.filter (fun e => e.1 != k)).Pairwise (fun a b => a.1 < b.1) := h.1.filter _
    unfold storeBlock
    by_cases hb : b = Block.reset
    · simpa [hb] using hf
    · rw [if_neg hb]
      exact pairwise_insertBlock hf (by simp)
  · obtain ⟨rfl, hb⟩ | ⟨he, -⟩ := mem_storeBlock he
    · exact hb
    · exact h.2 e he

/-- An instance is a listed entry or at its reset value. -/
theorem lookupBlock_mem (k : Nat) (l : List (Nat × Block)) : (k, lookupBlock k l) ∈ l ∨ lookupBlock k l = Block.reset := by
  induction l with
  | nil => simp [lookupBlock]
  | cons e l ih =>
    by_cases h : e.1 = k
    · left
      simp [lookupBlock, ← h]
    · simp only [lookupBlock, h, if_false, List.mem_cons]
      exact ih.imp Or.inr id

theorem Block.reset_valid : Block.reset.Valid := by decide

/-- Under the invariant every instance is valid, listed or not. -/
theorem State.Inv.block_valid {s : State} (h : s.Inv) (k : Nat) : (s.block k).Valid := by
  obtain hm | hr := lookupBlock_mem k s.blocks
  · exact h.2.2 _ hm
  · rw [State.block, hr]
    exact Block.reset_valid

/-- Writing a valid value to an instance of the platform keeps the invariant, whatever else a step writes. -/
theorem State.Inv.store {s t : State} {k : Nat} {b : Block} (h : s.Inv) (ht : t.blocks = storeBlock k b s.blocks)
    (hk : instanceExists k = true) (hb : b.Valid) : t.Inv := by
  refine ⟨ht ▸ canonical_storeBlock h.1, fun e he => ?_, fun e he => ?_⟩
  all_goals
    rw [ht] at he
    obtain ⟨rfl, -⟩ | ⟨he, -⟩ := mem_storeBlock he
  · exact hk
  · exact h.2.1 e he
  · exact hb
  · exact h.2.2 e he

/-! ### The parameters -/

theorem instanceExists_iff (k : Nat) : instanceExists k = true ↔ k < nInstances := by
  cases k <;> simp [instanceExists, nInstances]

theorem keepNonZero_of_legal {f : Word → Word → Word × Word} {g : GenState}
    (h : g ≠ ⟨0#64, 0#64⟩ → f g.x g.y ≠ (0#64, 0#64)) : keepNonZero f g = ⟨(f g.x g.y).1, (f g.x g.y).2⟩ :=
  if_neg (fun hc => h hc.2 hc.1)

theorem keepNonZero_ne_zero (f : Word → Word → Word × Word) {g : GenState} (h : g ≠ ⟨0#64, 0#64⟩) :
    keepNonZero f g ≠ ⟨0#64, 0#64⟩ := by
  unfold keepNonZero
  split
  · decide
  · rename_i hc
    intro he
    rw [GenState.mk.injEq] at he
    exact hc ⟨Prod.ext he.1 he.2, h⟩

theorem iterate_advance_ne_zero (n : Nat) {g : GenState} (h : g ≠ ⟨0#64, 0#64⟩) : iterate advance n g ≠ ⟨0#64, 0#64⟩ := by
  induction n generalizing g with
  | zero => exact h
  | succ n ih => exact ih (keepNonZero_ne_zero _ h)

/-! ### Taking a fault, and the checks -/

theorem Block.recording_of_ok {b : Block} (c : FaultKind) (h : b.fault = false) :
    b.recording c = ⟨b.xy, true, c.code⟩ := by
  simp [Block.recording, h]

@[simp] theorem State.raise_blocks (s : State) (c : FaultKind) :
    (s.raise c).blocks = storeBlock s.port.target (s.current.recording c) s.blocks := rfl

@[simp] theorem State.raise_current (s : State) (c : FaultKind) : (s.raise c).current = s.current.recording c := by
  simp [State.raise]

@[simp] theorem State.raise_block_of_ne (s : State) (c : FaultKind) {j : Nat} (h : j ≠ s.port.target) :
    (s.raise c).block j = s.block j := by
  unfold State.raise
  simp [h]

@[simp] theorem State.construct_blocks (s : State) (g : GenState) :
    (s.construct g).blocks = storeBlock s.port.target (s.current.holding g) s.blocks := rfl

@[simp] theorem State.construct_current (s : State) (g : GenState) :
    (s.construct g).current = s.current.holding g := by
  simp [State.construct]

@[simp] theorem State.construct_block_of_ne (s : State) (g : GenState) {j : Nat} (h : j ≠ s.port.target) :
    (s.construct g).block j = s.block j := by
  simp [State.construct, h]

theorem unlessFaulted_of_faulted {s : State} (h : s.current.fault = true) (o : Result) :
    unlessFaulted s o = .next s.refuse := by
  simp [unlessFaulted, h]

theorem unlessFaulted_of_ok {s : State} (h : s.current.fault = false) (o : Result) : unlessFaulted s o = o := by
  simp [unlessFaulted, h]

theorem valueCommand_of_unseeded {s : State} (hf : s.current.fault = false) (hx : s.current.xy = none)
    (f : GenState → Response × GenState) : valueCommand s f = .next (s.raise .unseeded) := by
  simp [valueCommand, unlessFaulted, hf, hx]

theorem valueCommand_of_ready {s : State} {g : GenState} (h : s.Ready g) (f : GenState → Response × GenState) :
    valueCommand s f = .next ((s.setCurrent (s.current.holding (f g).2)).respond (f g).1) := by
  simp [valueCommand, unlessFaulted, h.1, h.2]

/-- Everything a value command can do. -/
theorem valueCommand_cases (s : State) (f : GenState → Response × GenState) :
    (s.current.fault = true ∧ valueCommand s f = .next s.refuse) ∨
    (s.current.fault = false ∧ s.current.xy = none ∧ valueCommand s f = .next (s.raise .unseeded)) ∨
    ∃ g, s.Ready g ∧
      valueCommand s f = .next ((s.setCurrent (s.current.holding (f g).2)).respond (f g).1) := by
  cases hf : s.current.fault with
  | true => exact .inl ⟨rfl, unlessFaulted_of_faulted hf _⟩
  | false =>
    cases hx : s.current.xy with
    | none => exact .inr (.inl ⟨rfl, rfl, valueCommand_of_unseeded hf hx f⟩)
    | some g => exact .inr (.inr ⟨g, ⟨hf, hx⟩, valueCommand_of_ready ⟨hf, hx⟩ f⟩)

end Sys2Proof.Machine
end

