-- ==== Sys2Proof/Laws/Exec.lean ====
section
/-! SUPPORT. What a command can do, said once for all of them: the answer of every value command as one function of the
operand buses and the state held, and the cases of `exec` and of `step`. -/

namespace Sys2Proof.Machine

/-- The response of a value command, from the operand buses and the state the instance holds. -/
def valueResponse (i : Instr) (p : Port) (g : GenState) : Response :=
  match i with
  | .bool => Response.value (placeBool (boolOf (out g)))
  | .bernoulli => Response.value (placeBool (bern (out g) p.prob))
  | .u32 => Response.value (place32 (u32Of (out g)))
  | .i32 => Response.value (place32 (u32Of (out g)))
  | .boundedU32 => Response.value (place32 (bnd32 (out g) p.opa32))
  | .rangeU64 => Response.value (range64 (out g) p.opa p.opb)
  | .rangeI64 => Response.value (range64 (out g) p.opa p.opb)
  | .rangeU32 => Response.value (place32 (range32 (out g) p.opa32 p.opb32))
  | .rangeI32 => Response.value (place32 (range32 (out g) p.opa32 p.opb32))
  | .open01F64 => Response.value (open01F64 (out g))
  | .open01F32 => Response.value (place32 (open01F32 (out g)))
  | .split => Response.child (splitChild g).1
  | .fill => Response.stream (fillBytes advance p.opa g).1
  | _ => Response.value (out g)

/-- The state a value command leaves: one `ADVANCE` for each word it draws. -/
def valueState (i : Instr) (p : Port) (g : GenState) : GenState := iterate advance (drawsOf i p.opa) g

theorem fillWords_state (adv : GenState → GenState) (k : Nat) (g : GenState) :
    (fillWords adv k g).2 = iterate adv k g := by
  induction k generalizing g with
  | zero => rfl
  | succ k ih => exact ih (adv g)

theorem iterate_succ' (f : GenState → GenState) (n : Nat) (g : GenState) : iterate f (n + 1) g = f (iterate f n g) := by
  induction n generalizing g with
  | zero => rfl
  | succ n ih => exact ih (f g)

/-- FILL's whole words and remainder are the quotient and remainder of `n` by 8. -/
theorem fill_parts (n : Word) : (n >>> 3).toNat = n.toNat / 8 ∧ (n &&& 7#64).toNat = n.toNat % 8 := by
  constructor
  · rw [BitVec.toNat_ushiftRight, Nat.shiftRight_eq_div_pow]
  · rw [BitVec.toNat_and]
    exact Nat.and_two_pow_sub_one_eq_mod n.toNat 3

/-- FILL leaves the state `ceil(n / 8)` draws leave. -/
theorem fillBytes_state (adv : GenState → GenState) (n : Word) (g : GenState) :
    (fillBytes adv n g).2 = iterate adv ((n.toNat + 7) / 8) g := by
  obtain ⟨hk, hr⟩ := fill_parts n
  unfold fillBytes fillTail
  simp only [hk, hr, fillWords_state]
  split
  · have : (n.toNat + 7) / 8 = n.toNat / 8 := by omega
    rw [this]
  · have : (n.toNat + 7) / 8 = n.toNat / 8 + 1 := by omega
    rw [this, iterate_succ']
    rfl

/-- Every value command is a value command with this response and this state. -/
theorem exec_value (i : Instr) (s : State) (h : i.isValue = true) :
    exec i s = valueCommand s (fun g => (valueResponse i s.port g, valueState i s.port g)) := by
  cases i <;> first | rfl | (cases h)
  show valueCommand s _ = valueCommand s _
  simp only [valueResponse, valueState, drawsOf, fillBytes_state]

/-- Everything `exec` can do: read the status, be refused, take one of the two faults a legal command has, construct a state
that is not zero, or draw. -/
inductive ExecCase (i : Instr) (s : State) : Prop where
  | status (hi : i = .rdstatus) (h : exec i s = .next (s.respond (Response.value (statusReg s.current))))
  | refused (hi : i ≠ .rdstatus) (hf : s.current.fault = true) (h : exec i s = .next s.refuse)
  | unseeded (hi : i.isValue = true) (hf : s.current.fault = false) (hx : s.current.xy = none)
      (h : exec i s = .next (s.raise .unseeded))
  | zeroState (hi : i = .loadstate) (hf : s.current.fault = false) (hz : s.port.genState = ⟨0#64, 0#64⟩)
      (h : exec i s = .next (s.raise .zeroState))
  | construct (hf : s.current.fault = false) (g : GenState) (hg : g ≠ ⟨0#64, 0#64⟩)
      (hi : (i = .seed ∧ g = seedState seedMult seedFallback s.port.seed) ∨ (i = .loadstate ∧ g = s.port.genState))
      (h : exec i s = .next (s.construct g))
  | value (hi : i.isValue = true) (g : GenState) (hr : s.Ready g)
      (h : exec i s =
        .next ((s.setCurrent (s.current.holding (valueState i s.port g))).respond (valueResponse i s.port g)))

theorem nonZero_ne_zero (v : Wide) : nonZero v ≠ 0#128 := by
  unfold nonZero
  split
  · decide
  · assumption

/-- The two halves of a value that is not zero are not both zero. -/
theorem splitSeed_ne_zero {v : Wide} (h : v ≠ 0#128) : splitSeed v ≠ ⟨0#64, 0#64⟩ := by
  intro he
  rw [splitSeed, GenState.mk.injEq] at he
  apply h
  apply BitVec.eq_of_getLsbD_eq
  intro j hj
  by_cases h64 : j < 64
  · have := congrArg (fun u : Word => u.getLsbD j) he.1
    simpa [lo64, h64] using this
  · have := congrArg (fun u : Word => u.getLsbD (j - 64)) he.2
    have h2 : 64 + (j - 64) = j := by omega
    have h3 : j - 64 < 64 := by omega
    simpa [hi64, h2, h3] using this

/-- SEED's state is never zero (R21, R82). -/
theorem seedState_ne_zero (m : Wide) {fallback : Wide} (seed : Wide) (h : fallback ≠ 0#128) :
    seedState m fallback seed ≠ ⟨0#64, 0#64⟩ := by
  apply splitSeed_ne_zero
  unfold mixedSeed
  split <;> assumption

theorem exec_cases (i : Instr) (s : State) : ExecCase i s := by
  by_cases hv : i.isValue = true
  · have he := exec_value i s hv
    obtain ⟨hf, h⟩ | ⟨hf, hx, h⟩ | ⟨g, hr, h⟩ :=
      valueCommand_cases s (fun g => (valueResponse i s.port g, valueState i s.port g))
    · exact .refused (by rintro rfl; cases hv) hf (he.trans h)
    · exact .unseeded hv hf hx (he.trans h)
    · exact .value hv g hr (he.trans h)
  · by_cases hs : i = .rdstatus
    · subst hs
      exact .status rfl rfl
    · cases hf : s.current.fault with
      | true =>
        refine .refused hs hf ?_
        cases i <;> first | exact absurd rfl hv | exact absurd rfl hs | exact unlessFaulted_of_faulted hf _
      | false =>
        have hu := unlessFaulted_of_ok hf
        cases i <;> first | exact absurd rfl hv | exact absurd rfl hs | skip
        · exact .construct hf _ (seedState_ne_zero _ _ (nonZero_ne_zero _)) (.inl ⟨rfl, rfl⟩) (hu _)
        · by_cases hz : s.port.genState = ⟨0#64, 0#64⟩
          · exact .zeroState rfl hf hz ((hu _).trans (if_pos hz))
          · exact .construct hf _ hz (.inr ⟨rfl, rfl⟩) ((hu _).trans (if_neg hz))

/-- Everything `step` can do. -/
theorem step_cases (s : State) :
    (s.pending = [] ∧ step s = .next s) ∨
    (∃ k rest, s.pending = .reset k :: rest ∧ instanceExists k = true ∧
      step s = .next ({ s with pending := rest }.resetBlock k)) ∨
    (∃ k w a b rest, s.pending = .command k w a b :: rest ∧ instanceExists k = true ∧
      step s = execWord w ({ s with pending := rest }.issue k a b)) ∨
    ∃ e rest, s.pending = e :: rest ∧ instanceExists e.target = false ∧ step s = .fault (.noSuchInstance e.target) := by
  unfold step
  match hp : s.pending with
  | [] => exact .inl ⟨rfl, rfl⟩
  | .reset k :: rest =>
    cases hk : instanceExists k with
    | true => exact .inr (.inl ⟨k, rest, rfl, hk, by simp [takeEvent, hk]⟩)
    | false => exact .inr (.inr (.inr ⟨_, rest, rfl, hk, by simp [takeEvent, hk, HostEvent.target]⟩))
  | .command k w a b :: rest =>
    cases hk : instanceExists k with
    | true => exact .inr (.inr (.inl ⟨k, w, a, b, rest, rfl, hk, by simp [takeEvent, hk]⟩))
    | false => exact .inr (.inr (.inr ⟨_, rest, rfl, hk, by simp [takeEvent, hk, HostEvent.target]⟩))

/-- A word at an instance is a command, or is refused, or takes the ILLEGAL fault. -/
theorem execWord_cases (w : CmdWord) (s : State) :
    (∃ i, decode w = .ok i ∧ execWord w s = exec i s) ∨
    (∃ e, decode w = .error e ∧ s.current.fault = true ∧ execWord w s = .next s.refuse) ∨
    ∃ e, decode w = .error e ∧ s.current.fault = false ∧ execWord w s = .next (s.raise .illegal) := by
  unfold execWord
  match hd : decode w with
  | .ok i => exact .inl ⟨i, rfl, rfl⟩
  | .error e =>
    cases hf : s.current.fault with
    | true => exact .inr (.inl ⟨e, rfl, rfl, unlessFaulted_of_faulted hf _⟩)
    | false => exact .inr (.inr ⟨e, rfl, rfl, unlessFaulted_of_ok hf _⟩)

end Sys2Proof.Machine
end

