-- ==== Sys2Proof/Laws/Convert.lean ====
section
/-! SUPPORT. What each pure function is in exact arithmetic: the products, the word-to-value functions, the trailing-zero count
and FILL's bytes. Later proofs cite these instead of unfolding the bit vectors. -/

namespace Sys2Proof.Machine

/-! ### Products -/

theorem mul128_toNat (a b : Word) : (mul128 a b).toNat = a.toNat * b.toNat := by
  have h : a.toNat * b.toNat < 2 ^ 128 := by
    calc a.toNat * b.toNat < 2 ^ 64 * 2 ^ 64 := Nat.mul_lt_mul'' a.isLt b.isLt
      _ = 2 ^ 128 := by norm_num
  have ha : a.toNat < 2 ^ 128 := lt_trans a.isLt (by norm_num)
  have hb : b.toNat < 2 ^ 128 := lt_trans b.isLt (by norm_num)
  unfold mul128
  rw [BitVec.toNat_mul, BitVec.toNat_setWidth, BitVec.toNat_setWidth, Nat.mod_eq_of_lt ha, Nat.mod_eq_of_lt hb,
    Nat.mod_eq_of_lt h]

theorem lo64_toNat (p : Wide) : (lo64 p).toNat = p.toNat % 2 ^ 64 := by
  simp [lo64]

theorem hi64_toNat (p : Wide) : (hi64 p).toNat = p.toNat / 2 ^ 64 := by
  have : p.toNat / 2 ^ 64 < 2 ^ 64 := by have := p.isLt; omega
  rw [hi64, BitVec.extractLsb'_toNat, Nat.shiftRight_eq_div_pow, Nat.mod_eq_of_lt this]

/-- The high half of a product. -/
theorem hi64_mul128_toNat (a b : Word) : (hi64 (mul128 a b)).toNat = a.toNat * b.toNat / 2 ^ 64 := by
  rw [hi64_toNat, mul128_toNat]

/-- `out` (R85): the low half of the product xor its high half. -/
theorem out_toNat (g : GenState) :
    (out g).toNat = (g.x.toNat * g.y.toNat % 2 ^ 64) ^^^ (g.x.toNat * g.y.toNat / 2 ^ 64) := by
  rw [out, BitVec.toNat_xor, lo64_toNat, hi64_mul128_toNat, mul128_toNat]

/-- The offset `w * s / 2^64` of a word in a span of `s` is below `s`. -/
theorem offset_lt {w s : Nat} (hw : w < 2 ^ 64) (hs : 0 < s) : w * s / 2 ^ 64 < s := by
  rw [Nat.div_lt_iff_lt_mul (by norm_num), Nat.mul_comm]
  exact Nat.mul_lt_mul_of_pos_left hw hs

/-! ### Conversions -/

theorem boolOf_eq (w : Word) : boolOf w = decide (2 ^ 63 ≤ w.toNat) := by
  unfold boolOf
  have h := BitVec.msb_eq_decide w
  rw [BitVec.msb_eq_getLsbD_last] at h
  simpa using h

theorem u32Of_toNat (w : Word) : (u32Of w).toNat = w.toNat / 2 ^ 32 := by
  have : w.toNat / 2 ^ 32 < 2 ^ 32 := by have := w.isLt; omega
  rw [u32Of, BitVec.extractLsb'_toNat, Nat.shiftRight_eq_div_pow, Nat.mod_eq_of_lt this]

theorem place32_toNat (v : Half) : (place32 v).toNat = v.toNat := by
  have := v.isLt
  rw [place32, BitVec.toNat_setWidth, Nat.mod_eq_of_lt (by omega)]

theorem opa32_toNat (p : Port) : p.opa32.toNat = p.opa.toNat % 2 ^ 32 := by
  simp [Port.opa32]

theorem opb32_toNat (p : Port) : p.opb32.toNat = p.opb.toNat % 2 ^ 32 := by
  simp [Port.opb32]

/-- `bnd32` (R102) in exact arithmetic. -/
theorem bnd32_toNat (w : Word) (max : Half) : (bnd32 w max).toNat = w.toNat * (max.toNat + 1) / 2 ^ 64 := by
  have hm := max.isLt
  have hs : (max.setWidth 64 + 1#64).toNat = max.toNat + 1 := by
    rw [BitVec.toNat_add, BitVec.toNat_setWidth, BitVec.toNat_ofNat]
    omega
  have hlt := offset_lt w.isLt (Nat.succ_pos max.toNat)
  rw [bnd32, BitVec.toNat_setWidth, hi64_mul128_toNat, hs, Nat.mod_eq_of_lt]
  simp only [Nat.succ_eq_add_one] at hlt
  omega

/-- The wrapping distance of two 64-bit words. -/
theorem sub64_toNat (lo hi : Word) : (hi - lo).toNat = (hi.toNat + (2 ^ 64 - lo.toNat)) % 2 ^ 64 := by
  rw [BitVec.toNat_sub, Nat.add_comm]

/-- `range64` (R103) in exact arithmetic, for a distance `d` that is not the full span. -/
theorem range64_toNat (w lo hi : Word) (h : hi - lo ≠ 0xFFFFFFFFFFFFFFFF#64) :
    (range64 w lo hi).toNat = (lo.toNat + w.toNat * ((hi - lo).toNat + 1) / 2 ^ 64) % 2 ^ 64 := by
  have hne : (hi - lo).toNat ≠ 0xFFFFFFFFFFFFFFFF := fun he => h (BitVec.eq_of_toNat_eq he)
  have hlt := (hi - lo).isLt
  have hs : (hi - lo + 1#64).toNat = (hi - lo).toNat + 1 := by
    rw [BitVec.toNat_add, BitVec.toNat_ofNat]
    omega
  rw [range64, if_neg h, BitVec.toNat_add, hi64_mul128_toNat, hs]

/-- The full span returns the raw word (R103). -/
theorem range64_full (w lo hi : Word) (h : hi - lo = 0xFFFFFFFFFFFFFFFF#64) : range64 w lo hi = w := if_pos h

/-- `range32` (R104) in exact arithmetic. -/
theorem range32_toNat (w : Word) (lo hi : Half) :
    (range32 w lo hi).toNat = (lo.toNat + w.toNat * ((hi - lo).toNat + 1) / 2 ^ 64) % 2 ^ 32 := by
  rw [range32, BitVec.toNat_add, bnd32_toNat]

/-! ### Trailing zeros, and the floats built from them -/

theorem trailingZeros_le (width n : Nat) : trailingZeros width n ≤ width := by
  induction width generalizing n with
  | zero => exact Nat.le_refl 0
  | succ width ih =>
    unfold trailingZeros
    split
    · omega
    · have := ih (n / 2)
      omega

/-- The bits below the count are clear, and the bit at the count is set unless the count is the width. -/
theorem trailingZeros_spec (width n : Nat) :
    (∀ j < trailingZeros width n, n.testBit j = false) ∧
    (trailingZeros width n < width → n.testBit (trailingZeros width n) = true) := by
  induction width generalizing n with
  | zero => simp [trailingZeros]
  | succ width ih =>
    unfold trailingZeros
    by_cases h : n % 2 = 1
    · simp [h, Nat.testBit_zero]
    · obtain ⟨h1, h2⟩ := ih (n / 2)
      rw [if_neg h]
      refine ⟨fun j hj => ?_, fun hlt => ?_⟩
      · cases j with
        | zero => simp [Nat.testBit_zero, h]
        | succ j =>
          rw [Nat.testBit_succ]
          exact h1 j (by omega)
      · rw [Nat.testBit_succ]
        exact h2 (by omega)

theorem ctz64_le (w : Word) : ctz64 w ≤ 64 := trailingZeros_le 64 w.toNat

theorem ctz32_le (v : Half) : ctz32 v ≤ 32 := trailingZeros_le 32 v.toNat

/-- The pattern `open01_f64` builds (R105). -/
theorem open01F64_toNat (w : Word) : (open01F64 w).toNat = (1022 - ctz64 w) * 2 ^ 52 + w.toNat / 2 ^ 12 := by
  have hm : w.toNat / 2 ^ 12 < 2 ^ 52 := by have := w.isLt; omega
  have he : 1022 - ctz64 w < 2 ^ 11 := by omega
  rw [open01F64, BitVec.toNat_append, BitVec.toNat_append, BitVec.extractLsb'_toNat, Nat.shiftRight_eq_div_pow,
    Nat.mod_eq_of_lt hm, ← Nat.shiftLeft_add_eq_or_of_lt hm,
    Nat.shiftLeft_eq]
  simpa using he

/-- The pattern `open01_f32` builds (R106). -/
theorem open01F32_toNat (w : Word) :
    (open01F32 w).toNat = (126 - ctz32 (u32Of w)) * 2 ^ 23 + w.toNat / 2 ^ 41 := by
  have hm : w.toNat / 2 ^ 32 / 2 ^ 9 < 2 ^ 23 := by have := w.isLt; omega
  have he : 126 - ctz32 (u32Of w) < 2 ^ 8 := by omega
  rw [open01F32, BitVec.toNat_append, BitVec.toNat_append, BitVec.extractLsb'_toNat, Nat.shiftRight_eq_div_pow,
    u32Of_toNat, Nat.mod_eq_of_lt hm, ← Nat.shiftLeft_add_eq_or_of_lt hm,
    Nat.shiftLeft_eq, Nat.div_div_eq_div_mul]
  simpa using he

/-- The value of a pattern with sign 0, a normal exponent and a fraction. -/
theorem f64FromBits_normal {b : Word} {e f : Nat} (hb : b.toNat = e * 2 ^ 52 + f) (hf : f < 2 ^ 52) (h0 : 0 < e)
    (h1 : e < 2047) : f64FromBits b = .finite ((2 ^ 52 + f) * 2 ^ (e - 1) : Nat) := by
  have hs : b.getLsbD 63 = false := by
    have h := BitVec.msb_eq_decide b
    rw [BitVec.msb_eq_getLsbD_last] at h
    have : ¬ 2 ^ 63 ≤ b.toNat := by omega
    simpa only [this, decide_false] using h
  have he : (b.extractLsb' 52 11).toNat = e := by
    rw [BitVec.extractLsb'_toNat, Nat.shiftRight_eq_div_pow, hb]
    omega
  have hfr : (b.extractLsb' 0 52).toNat = f := by
    rw [BitVec.extractLsb'_toNat, hb]
    simp only [Nat.shiftRight_zero]
    omega
  unfold f64FromBits floatOf
  rw [hs, he, hfr, if_neg (by omega)]
  simp only [magnitude, Nat.ne_of_gt h0, if_false]
  rfl

/-- The value of a binary32 pattern with sign 0, a normal exponent and a fraction. -/
theorem f32FromBits_normal {b : Half} {e f : Nat} (hb : b.toNat = e * 2 ^ 23 + f) (hf : f < 2 ^ 23) (h0 : 0 < e)
    (h1 : e < 255) : f32FromBits b = .finite ((2 ^ 23 + f) * 2 ^ (e - 1) : Nat) := by
  have hs : b.getLsbD 31 = false := by
    have h := BitVec.msb_eq_decide b
    rw [BitVec.msb_eq_getLsbD_last] at h
    have : ¬ 2 ^ 31 ≤ b.toNat := by omega
    simpa only [this, decide_false] using h
  have he : (b.extractLsb' 23 8).toNat = e := by
    rw [BitVec.extractLsb'_toNat, Nat.shiftRight_eq_div_pow, hb]
    omega
  have hfr : (b.extractLsb' 0 23).toNat = f := by
    rw [BitVec.extractLsb'_toNat, hb]
    simp only [Nat.shiftRight_zero]
    omega
  unfold f32FromBits floatOf
  rw [hs, he, hfr, if_neg (by omega)]
  simp only [magnitude, Nat.ne_of_gt h0, if_false]
  rfl

/-! ### FILL's bytes -/

@[simp] theorem leBytes_length (w : Word) (r : Nat) : (leBytes w r).length = r := by simp [leBytes]

theorem leBytes_take (w : Word) {r : Nat} (h : r ≤ 8) : (leBytes w 8).take r = leBytes w r := by
  rw [leBytes, leBytes, ← List.map_take, List.take_range, Nat.min_eq_left h]

/-- The whole words of a FILL are its words' bytes in draw order (R145). -/
theorem fillWords_bytes (adv : GenState → GenState) (k : Nat) (g : GenState) :
    (fillWords adv k g).1 = (wordsFrom adv k g).flatMap (fun w => leBytes w 8) := by
  induction k generalizing g with
  | zero => rfl
  | succ k ih => simp [fillWords, wordsFrom, drawWith, ih]

@[simp] theorem wordsFrom_length (adv : GenState → GenState) (n : Nat) (g : GenState) : (wordsFrom adv n g).length = n := by
  induction n generalizing g with
  | zero => rfl
  | succ n ih => simp [wordsFrom, ih]

theorem wordsFrom_succ' (adv : GenState → GenState) (n : Nat) (g : GenState) :
    wordsFrom adv (n + 1) g = wordsFrom adv n g ++ [out (iterate adv n g)] := by
  induction n generalizing g with
  | zero => rfl
  | succ n ih =>
    rw [wordsFrom, ih (adv g)]
    rfl

theorem flatMap_leBytes_length (ws : List Word) : (ws.flatMap (fun w => leBytes w 8)).length = 8 * ws.length := by
  induction ws with
  | nil => rfl
  | cons w ws ih =>
    simp only [List.flatMap_cons, List.length_append, leBytes_length, ih, List.length_cons]
    omega

/-- FILL's bytes are the first `n` bytes of its words, least significant byte first (R41, R145). -/
theorem fillBytes_bytes (adv : GenState → GenState) (n : Word) (g : GenState) :
    (fillBytes adv n g).1 =
      ((wordsFrom adv ((n.toNat + 7) / 8) g).flatMap (fun w => leBytes w 8)).take n.toNat := by
  obtain ⟨hk, hr⟩ := fill_parts n
  unfold fillBytes fillTail
  simp only [hk, hr, fillWords_bytes, fillWords_state]
  split
  · have h : (n.toNat + 7) / 8 = n.toNat / 8 := by omega
    rw [h, List.append_nil, List.take_of_length_le]
    rw [flatMap_leBytes_length, wordsFrom_length]
    omega
  · have h : (n.toNat + 7) / 8 = n.toNat / 8 + 1 := by omega
    have hl : ((wordsFrom adv (n.toNat / 8) g).flatMap (fun w => leBytes w 8)).length = 8 * (n.toNat / 8) := by
      rw [flatMap_leBytes_length, wordsFrom_length]
    have hs : n.toNat - 8 * (n.toNat / 8) = n.toNat % 8 := by omega
    rw [h, wordsFrom_succ', List.flatMap_append, List.take_append, hl, hs, List.take_of_length_le (by omega)]
    simp only [List.flatMap_cons, List.flatMap_nil, List.append_nil, drawWith]
    rw [leBytes_take _ (by omega)]

/-- FILL emits exactly `n` bytes (R146). -/
theorem fillBytes_length (adv : GenState → GenState) (n : Word) (g : GenState) :
    (fillBytes adv n g).1.length = n.toNat := by
  rw [fillBytes_bytes, List.length_take, flatMap_leBytes_length, wordsFrom_length]
  omega

/-! ### The avalanche -/

/-- A xor with its own high half is undone by doing it again (R83). -/
theorem xorShift_involutive (s : Wide) : (s ^^^ (s >>> 64)) ^^^ ((s ^^^ (s >>> 64)) >>> 64) = s := by
  apply BitVec.eq_of_getLsbD_eq
  intro j hj
  have : s.getLsbD (64 + (64 + j)) = false := BitVec.getLsbD_of_ge _ _ (by omega)
  simp [this]

/-- Multiplying by an odd value has an inverse (R83). -/
theorem mul_odd_injective {m : Wide} (hm : m.getLsbD 0 = true) : Function.Injective (fun s : Wide => s * m) := by
  intro a b h
  have hodd : Nat.Coprime (2 ^ 128) m.toNat := by
    have : m.toNat % 2 = 1 := by
      have := hm
      rw [BitVec.getLsbD, Nat.testBit_zero] at this
      simpa using this
    exact Nat.Coprime.pow_left _ ((Nat.coprime_two_left).mpr (Nat.odd_iff.mpr this))
  apply BitVec.eq_of_toNat_eq
  have h' : a.toNat * m.toNat ≡ b.toNat * m.toNat [MOD 2 ^ 128] := by
    have := congrArg BitVec.toNat h
    rwa [BitVec.toNat_mul, BitVec.toNat_mul] at this
  have := Nat.ModEq.cancel_right_of_coprime hodd h'
  rwa [Nat.ModEq, Nat.mod_eq_of_lt a.isLt, Nat.mod_eq_of_lt b.isLt] at this

theorem mixRound_injective {m : Wide} (hm : m.getLsbD 0 = true) : Function.Injective (mixRound m) := by
  intro a b h
  have := congrArg (fun s : Wide => s ^^^ (s >>> 64)) h
  simp only [mixRound, xorShift_involutive] at this
  exact mul_odd_injective hm this

end Sys2Proof.Machine
end

