-- ==== Sys2Proof/Laws/PerInstr.lean ====
section
/-! SUPPORT. The statement made for every command of the opcode map as syntax: its word is legal (spec/30_encoding.md R62),
is read back as that command, and every bit above the opcode is zero (R61). -/

namespace Sys2Proof.Laws.Encoding

/-- What the encoding of one command meets. -/
def Statement (i : Instr) : Prop :=
  legal (encode i) = true ∧ decode (encode i) = .ok i ∧ (encode i).extractLsb' 8 24 = 0#24

theorem seed : Statement .seed := ⟨rfl, rfl, rfl⟩
theorem loadstate : Statement .loadstate := ⟨rfl, rfl, rfl⟩
theorem rdstatus : Statement .rdstatus := ⟨rfl, rfl, rfl⟩
theorem bool : Statement .bool := ⟨rfl, rfl, rfl⟩
theorem bernoulli : Statement .bernoulli := ⟨rfl, rfl, rfl⟩
theorem u64 : Statement .u64 := ⟨rfl, rfl, rfl⟩
theorem i64 : Statement .i64 := ⟨rfl, rfl, rfl⟩
theorem u32 : Statement .u32 := ⟨rfl, rfl, rfl⟩
theorem i32 : Statement .i32 := ⟨rfl, rfl, rfl⟩
theorem boundedU32 : Statement .boundedU32 := ⟨rfl, rfl, rfl⟩
theorem rangeU64 : Statement .rangeU64 := ⟨rfl, rfl, rfl⟩
theorem rangeI64 : Statement .rangeI64 := ⟨rfl, rfl, rfl⟩
theorem rangeU32 : Statement .rangeU32 := ⟨rfl, rfl, rfl⟩
theorem rangeI32 : Statement .rangeI32 := ⟨rfl, rfl, rfl⟩
theorem open01F64 : Statement .open01F64 := ⟨rfl, rfl, rfl⟩
theorem open01F32 : Statement .open01F32 := ⟨rfl, rfl, rfl⟩
theorem split : Statement .split := ⟨rfl, rfl, rfl⟩
theorem fill : Statement .fill := ⟨rfl, rfl, rfl⟩

end Sys2Proof.Laws.Encoding
end

