-- ==== Sys2Proof/Tests/Slice0.lean ====
section
/-! SUPPORT. Tests on fixed values. Every expected value is copied from a table of spec/95_test_vectors.md (the section is
named at each test) or written out from the encoding of spec/30_encoding.md. The witnesses at the end show, for every
obligation with hypotheses, a state and operands that meet them. -/

namespace Sys2Proof.Tests.Slice0

open Sys2Proof Sys2Proof.Machine

/-! ### Command words -/

/-- R61: a reserved bit makes a word ill-formed. -/
theorem test_wf_reserved : reservedClear 0x00000100#32 = false ∧ legal 0x00000101#32 = false ∧ legal 0x80000001#32 = false := by
  decide

/-- R62: an opcode off the list makes a word ill-formed; the edges of the listed ranges do not. -/
theorem test_wf_opcode :
    opcodeListed 0x00000000#32 = false ∧ legal 0x0000002C#32 = false ∧ legal 0x00000004#32 = false ∧
    legal 0x0000000F#32 = false ∧ legal 0x0000001D#32 = false ∧ legal 0x0000001F#32 = false ∧
    legal 0x00000022#32 = false ∧ legal 0x00000003#32 = true ∧ legal 0x0000001C#32 = true ∧ legal 0x00000021#32 = true := by
  decide

theorem test_decode_seed : decode 0b00000000000000000000000000000001#32 = .ok .seed := by decide
theorem test_decode_loadstate : decode 0b00000000000000000000000000000010#32 = .ok .loadstate := by decide
theorem test_decode_rdstatus : decode 0b00000000000000000000000000000011#32 = .ok .rdstatus := by decide
theorem test_decode_bool : decode 0b00000000000000000000000000010000#32 = .ok .bool := by decide
theorem test_decode_bernoulli : decode 0b00000000000000000000000000010001#32 = .ok .bernoulli := by decide
theorem test_decode_u64 : decode 0b00000000000000000000000000010010#32 = .ok .u64 := by decide
theorem test_decode_i64 : decode 0b00000000000000000000000000010011#32 = .ok .i64 := by decide
theorem test_decode_u32 : decode 0b00000000000000000000000000010100#32 = .ok .u32 := by decide
theorem test_decode_i32 : decode 0b00000000000000000000000000010101#32 = .ok .i32 := by decide
theorem test_decode_bounded_u32 : decode 0b00000000000000000000000000010110#32 = .ok .boundedU32 := by decide
theorem test_decode_range_u64 : decode 0b00000000000000000000000000010111#32 = .ok .rangeU64 := by decide
theorem test_decode_range_i64 : decode 0b00000000000000000000000000011000#32 = .ok .rangeI64 := by decide
theorem test_decode_range_u32 : decode 0b00000000000000000000000000011001#32 = .ok .rangeU32 := by decide
theorem test_decode_range_i32 : decode 0b00000000000000000000000000011010#32 = .ok .rangeI32 := by decide
theorem test_decode_open01_f64 : decode 0b00000000000000000000000000011011#32 = .ok .open01F64 := by decide
theorem test_decode_open01_f32 : decode 0b00000000000000000000000000011100#32 = .ok .open01F32 := by decide
theorem test_decode_split : decode 0b00000000000000000000000000100000#32 = .ok .split := by decide
theorem test_decode_fill : decode 0b00000000000000000000000000100001#32 = .ok .fill := by decide

/-- R64: both names of a word that is no command. -/
theorem test_decode_errors :
    decode 0x00000000#32 = .error .unknownOpcode ∧ decode 0x0000002C#32 = .error .unknownOpcode ∧
    decode 0x00000100#32 = .error .reservedBits ∧ decode 0x00001200#32 = .error .reservedBits := by
  decide

/-- The opcode table's own numbering of the bits. -/
theorem test_table_word :
    decodeTableWord 32 0x12 = some .u64 ∧ decodeTableWord 8 0x1C = some .open01F32 ∧ decodeTableWord 32 0x112 = none ∧
    decodeTableWord 40 0x12 = none := by
  decide

/-! ### The functions, against the tables of section 2 -/

/-- V-MIX. -/
theorem test_mix :
    mix128 refSeedMult 0#128 = 0#128 ∧
    mix128 refSeedMult 1#128 = 0x99B9FD56F281C63A95809460F1246E78#128 ∧
    mix128 refSeedMult 2#128 = 0x792C120ED76379D7E80834BFE2C94745#128 ∧
    mix128 refSeedMult 0xFFFFFFFFFFFFFFFFFFFFFFFFFFFFFFFF#128 = 0x6AC5400E9494ABA45ACA59CC0EC17328#128 := by
  decide

/-- V-MIX, the round trace for seed 42. -/
theorem test_mix_rounds :
    mixRound refSeedMult 42#128 = 0xF519F86EE2385B9902AE77A1DD3A832B#128 ∧
    mixRound refSeedMult 0xF519F86EE2385B9902AE77A1DD3A832B#128 = 0xE45A668ACA63E298BB2F194DAC065D7F#128 ∧
    mixRound refSeedMult 0xE45A668ACA63E298BB2F194DAC065D7F#128 = 0x633164D57E273FBED114A242B6C8ACF5#128 := by
  decide

/-- V-MIX: the state SEED constructs, the fallback for seed 0 among them. -/
theorem test_seed_state :
    seedState refSeedMult refSeedFallback 0#128 = ⟨0xF39CC0605CEDC835#64, 0x9E3779B97F4A7C15#64⟩ ∧
    seedState refSeedMult refSeedFallback 1#128 = ⟨0x95809460F1246E78#64, 0x99B9FD56F281C63A#64⟩ ∧
    seedState refSeedMult refSeedFallback 7#128 = ⟨0x107D193BE1338EDC#64, 0x3EBEF563F702E8C7#64⟩ := by
  decide

/-- V-OUT. -/
theorem test_out :
    out ⟨1#64, 0x123456789ABCDEF0#64⟩ = 0x123456789ABCDEF0#64 ∧
    out ⟨0xFFFFFFFFFFFFFFFF#64, 2#64⟩ = 0xFFFFFFFFFFFFFFFF#64 ∧
    out ⟨0xD114A242B6C8ACF5#64, 0x633164D57E273FBE#64⟩ = 0x70CF4007B2DA7693#64 := by
  decide

/-- V-ADV, V-STEP: the reference recurrence over the first draws after SEED 42. -/
theorem test_draws :
    refAdvance ⟨0#64, 1#64⟩ = ⟨0x0000000000010001#64, 0x0000002000000000#64⟩ ∧
    iterate refAdvance 1 ⟨0xD114A242B6C8ACF5#64, 0x633164D57E273FBE#64⟩ = ⟨0x3604C6D4AE7587E9#64, 0x1DF2697644B8D2F9#64⟩ ∧
    iterate refAdvance 6 ⟨0xD114A242B6C8ACF5#64, 0x633164D57E273FBE#64⟩ = ⟨0xF42EEEEA2E1FA81E#64, 0x36F05F971E88C5FF#64⟩ ∧
    wordsFrom refAdvance 3 ⟨0xD114A242B6C8ACF5#64, 0x633164D57E273FBE#64⟩ =
      [0x70CF4007B2DA7693#64, 0x5D701FB95A57327B#64, 0x544B94E518FCE675#64] := by
  decide

/-- V-BND. -/
theorem test_bnd32 :
    bnd32 0x8000000000000000#64 10#32 = 5#32 ∧ bnd32 0x70CF4007B2DA7693#64 10#32 = 4#32 ∧
    bnd32 0xFFFFFFFF00000000#64 10#32 = 10#32 ∧ bnd32 0x8000000000000000#64 1#32 = 1#32 ∧
    bnd32 0x70CF4007B2DA7693#64 0xFFFFFFFF#32 = 1892630535#32 := by
  decide

/-- V-R64, the columns outside the domain and of the full span among them. -/
theorem test_range64 :
    range64 0x70CF4007B2DA7693#64 0#64 0xFFFFFFFFFFFFFFFF#64 = 8128786254236645011#64 ∧
    range64 0x70CF4007B2DA7693#64 0#64 0xFFFFFFFFFFFFFFFE#64 = 8128786254236645010#64 ∧
    range64 0x8000000000000000#64 10#64 20#64 = 15#64 ∧ range64 0xFFFFFFFFFFFFFFFF#64 5#64 5#64 = 5#64 ∧
    range64 0x8000000000000000#64 20#64 10#64 = 9223372036854775823#64 ∧
    range64 0xFFFFFFFFFFFFFFFF#64 20#64 10#64 = 10#64 := by
  decide

/-- V-RI64. -/
theorem test_range_signed64 :
    (range64 0#64 (BitVec.ofInt 64 (-1)) 1#64).toInt = -1 ∧
    (range64 0x70CF4007B2DA7693#64 (BitVec.ofInt 64 (-5)) 5#64).toInt = -1 ∧
    (range64 0x8000000000000000#64 (BitVec.ofInt 64 (-2 ^ 63)) (BitVec.ofInt 64 (2 ^ 63 - 1))).toInt = -9223372036854775808 := by
  decide

/-- V-R32, V-RI32. -/
theorem test_range32 :
    range32 0x70CF4007B2DA7693#64 100#32 200#32 = 144#32 ∧ range32 0x8000000000000000#64 0#32 0xFFFFFFFF#32 = 2147483648#32 ∧
    range32 0x70CF4007B2DA7693#64 0xFFFFFFFE#32 0xFFFFFFFF#32 = 4294967294#32 ∧
    (range32 0x70CF4007B2DA7693#64 (BitVec.ofInt 32 (-2 ^ 31)) (BitVec.ofInt 32 (2 ^ 31 - 1))).toInt = -254853113 ∧
    (range32 0#64 (BitVec.ofInt 32 (-1)) 1#32).toInt = -1 := by
  decide

/-- V-F64. -/
theorem test_open01_f64 :
    open01F64 0x0000000000001000#64 = 0x3F20000000000001#64 ∧ open01F64 0x0000000100000000#64 = 0x3DE0000000100000#64 ∧
    open01F64 0x8000000000000000#64 = 0x3BF8000000000000#64 ∧ open01F64 0xFFFFFFFFFFFFF000#64 = 0x3F2FFFFFFFFFFFFF#64 ∧
    open01F64 0x70CF4007B2DA7693#64 = 0x3FE70CF4007B2DA7#64 := by
  decide

/-- V-F32. -/
theorem test_open01_f32 :
    open01F32 0x0000000000000000#64 = 0x2F000000#32 ∧ open01F32 0x7FFFFFFFFFFFFFFF#64 = 0x3F3FFFFF#32 ∧
    open01F32 0x8000000000000001#64 = 0x2FC00000#32 ∧ open01F32 0x70CF4007B2DA7693#64 = 0x3F3867A0#32 := by
  decide

/-- V-BERN: the rows for the words 1 and 2; the columns 0.0, -0.0, 0.5, 1.0, 2.0, -1.0, +inf, NaN. -/
theorem test_bern :
    [0x0#64, 0x8000000000000000#64, 0x3FE0000000000000#64, 0x3FF0000000000000#64, 0x4000000000000000#64,
      0xBFF0000000000000#64, 0x7FF0000000000000#64, 0x7FF8000000000000#64].map (fun p => bern 1#64 (f64FromBits p)) =
      [false, false, false, true, true, false, true, false] ∧
    [0x0#64, 0x8000000000000000#64, 0x3FE0000000000000#64, 0x3FF0000000000000#64, 0x4000000000000000#64,
      0xBFF0000000000000#64, 0x7FF0000000000000#64, 0x7FF8000000000000#64].map (fun p => bern 2#64 (f64FromBits p)) =
      [false, false, true, true, true, false, true, false] := by
  decide +kernel

/-- V-FILL: 3, 8 and 11 bytes after SEED 42. -/
theorem test_fill_bytes :
    (fillBytes refAdvance 3#64 ⟨0xD114A242B6C8ACF5#64, 0x633164D57E273FBE#64⟩).1 = [0x93#8, 0x76#8, 0xDA#8] ∧
    fillBytes refAdvance 8#64 ⟨0xD114A242B6C8ACF5#64, 0x633164D57E273FBE#64⟩ =
      ([0x93#8, 0x76#8, 0xDA#8, 0xB2#8, 0x07#8, 0x40#8, 0xCF#8, 0x70#8], ⟨0x3604C6D4AE7587E9#64, 0x1DF2697644B8D2F9#64⟩) ∧
    fillBytes refAdvance 11#64 ⟨0xD114A242B6C8ACF5#64, 0x633164D57E273FBE#64⟩ =
      ([0x93#8, 0x76#8, 0xDA#8, 0xB2#8, 0x07#8, 0x40#8, 0xCF#8, 0x70#8, 0x7B#8, 0x32#8, 0x57#8],
        ⟨0x50FA30E856EB51D6#64, 0x59AAA2057ED5F45D#64⟩) := by
  decide

/-- V-STATUS: every row. -/
theorem test_status :
    statusReg ⟨none, false, 0#4⟩ = 0x00#64 ∧ statusReg ⟨some ⟨1#64, 0#64⟩, false, 0#4⟩ = 0x01#64 ∧
    statusReg ⟨some ⟨1#64, 0#64⟩, true, 1#4⟩ = 0x13#64 ∧ statusReg ⟨none, true, 1#4⟩ = 0x12#64 ∧
    statusReg ⟨none, true, 2#4⟩ = 0x22#64 ∧ statusReg ⟨none, true, 3#4⟩ = 0x32#64 := by
  decide

/-! ### One step on a small state -/

/-- Instance 0 holds `b`; its command has the operands `opa` and `opb`. -/
def stateOf (b : Block) (opa opb : Word) : State :=
  { blocks := [(0, b)], port := { target := 0, opa := opa, opb := opb }, pending := [], responses := [] }

/-- Instance 0 holds the state (1, `w`), whose next word is `w` (V-OUT). -/
def drawing (w opa opb : Word) : State := stateOf ⟨some ⟨1#64, w⟩, false, 0#4⟩ opa opb

/-- The reset state with one host event to come. -/
def withEvent (s : State) (e : HostEvent) : State := { s with pending := [e] }

/-- The response just returned: its status code, `RES0`, `RES1` and `BYTES`. -/
def answer (o : Result) : Option (Nat × Word × Word × List Byte) :=
  match o with
  | .next t => t.responses.head?.map (fun e => (e.2.status.code, e.2.res0, e.2.res1, e.2.bytes))
  | .fault _ => none
  | .refused _ => none

/-- STATUS of instance 0 after the step. -/
def statusAfter (o : Result) : Option Word :=
  match o with
  | .next t => some (statusReg (t.block 0))
  | .fault _ => none
  | .refused _ => none

/-- R81: no value is returned and the instance is constructed. -/
theorem test_seed :
    answer (exec .seed (stateOf Block.reset 42#64 0#64)) = some (0, 0#64, 0#64, []) ∧
    statusAfter (exec .seed (stateOf Block.reset 42#64 0#64)) = some 0x01#64 := by
  decide

/-- V-FAULT: SEED at a faulted instance. -/
theorem test_seed_refused :
    answer (exec .seed (stateOf ⟨none, true, 2#4⟩ 1#64 0#64)) = some (4, 0#64, 0#64, []) ∧
    statusAfter (exec .seed (stateOf ⟨none, true, 2#4⟩ 1#64 0#64)) = some 0x22#64 := by
  decide

/-- V-LOAD: one zero word is accepted. -/
theorem test_loadstate :
    exec .loadstate (stateOf Block.reset 1#64 0#64) =
      .next { stateOf ⟨some ⟨1#64, 0#64⟩, false, 0#4⟩ 1#64 0#64 with responses := [(0, ⟨.ok, 0#64, 0#64, []⟩)] } := rfl

/-- V-LOAD: both words zero. -/
theorem test_loadstate_zero :
    answer (exec .loadstate (stateOf Block.reset 0#64 0#64)) = some (3, 0#64, 0#64, []) ∧
    statusAfter (exec .loadstate (stateOf Block.reset 0#64 0#64)) = some 0x32#64 := by
  decide

/-- V-FAULT: RDSTATUS at a faulted instance. -/
theorem test_rdstatus : answer (exec .rdstatus (stateOf ⟨none, true, 2#4⟩ 0#64 0#64)) = some (0, 0x22#64, 0#64, []) := by
  decide

/-- V-BOOL. -/
theorem test_bool :
    answer (exec .bool (drawing 0x8000000000000000#64 0#64 0#64)) = some (0, 1#64, 0#64, []) ∧
    answer (exec .bool (drawing 0x7FFFFFFFFFFFFFFF#64 0#64 0#64)) = some (0, 0#64, 0#64, []) := by
  decide

/-- P3, command 6. -/
theorem test_bernoulli :
    answer (exec .bernoulli (drawing 0xC61905D233033718#64 0x3FE0000000000000#64 0#64)) = some (0, 1#64, 0#64, []) := by
  decide +kernel

/-- V-GOLD: the first word after SEED 42. -/
theorem test_u64 :
    answer (exec .u64 (stateOf ⟨some ⟨0xD114A242B6C8ACF5#64, 0x633164D57E273FBE#64⟩, false, 0#4⟩ 0#64 0#64)) =
      some (0, 0x70CF4007B2DA7693#64, 0#64, []) := by
  decide

/-- V-FAULT: U64 after reset. -/
theorem test_u64_unseeded :
    answer (exec .u64 State.reset) = some (2, 0#64, 0#64, []) ∧ statusAfter (exec .u64 State.reset) = some 0x22#64 := by
  decide

/-- V-INT: the top bit is kept. -/
theorem test_i64 :
    answer (exec .i64 (drawing 0x8000000000000001#64 0#64 0#64)) = some (0, 0x8000000000000001#64, 0#64, []) := by
  decide

/-- V-INT: the high half. -/
theorem test_u32 :
    answer (exec .u32 (drawing 0x0000000100000000#64 0#64 0#64)) = some (0, 1#64, 0#64, []) := by
  decide

/-- V-INT: zero-extended, though -1 is read. -/
theorem test_i32 :
    answer (exec .i32 (drawing 0xFFFFFFFF00000000#64 0#64 0#64)) = some (0, 0x00000000FFFFFFFF#64, 0#64, []) := by
  decide

/-- V-BND; R69: the high half of OPA is ignored. -/
theorem test_bounded_u32 :
    answer (exec .boundedU32 (drawing 0x70CF4007B2DA7693#64 0xABCD00000000000A#64 7#64)) = some (0, 4#64, 0#64, []) := by
  decide

/-- P3, command 11. -/
theorem test_range_u64 :
    answer (exec .rangeU64 (drawing 0xADF5ED006E3176A1#64 0xA#64 0x14#64)) = some (0, 17#64, 0#64, []) := by
  decide

/-- P3, command 4. -/
theorem test_range_i64 :
    answer (exec .rangeI64 (drawing 0x3A02F96E75FCB300#64 0xFFFFFFFFFFFFFFFB#64 5#64)) =
      some (0, 0xFFFFFFFFFFFFFFFD#64, 0#64, []) := by
  decide

/-- P3, command 9. -/
theorem test_range_u32 :
    answer (exec .rangeU32 (drawing 0x33A17973D13741C7#64 0x64#64 0xC8#64)) = some (0, 120#64, 0#64, []) := by
  decide

/-- P3, command 10, and V-RI32: -1 is zero-extended. -/
theorem test_range_i32 :
    answer (exec .rangeI32 (drawing 0xBF1F0E6D5A944C1E#64 0xFFFFFFFB#64 5#64)) = some (0, 3#64, 0#64, []) ∧
    answer (exec .rangeI32 (drawing 0#64 0xFFFFFFFF#64 1#64)) = some (0, 0x00000000FFFFFFFF#64, 0#64, []) := by
  decide

/-- P3, command 5. -/
theorem test_open01_f64_command :
    answer (exec .open01F64 (drawing 0x3C2B247C6E35A873#64 0#64 0#64)) = some (0, 0x3FE3C2B247C6E35A#64, 0#64, []) := by
  decide

/-- P3, command 7. -/
theorem test_open01_f32_command :
    answer (exec .open01F32 (drawing 0x7181B95CA9E4452F#64 0#64 0#64)) = some (0, 0x3E38C0DC#64, 0#64, []) := by
  decide

/-- V-SPLIT-2: the first word is forced odd. -/
theorem test_split :
    (answer (exec .split (stateOf ⟨some ⟨0x107D193BE1338EDC#64, 0x3EBEF563F702E8C7#64⟩, false, 0#4⟩ 0#64 0#64))).map (·.2.1) =
      some 0xE2C4B5374E28F9D9#64 := by
  decide

/-- V-SPLIT-2 under the reference recurrence: both child words and the parent left. -/
theorem test_split_words :
    wordsFrom refAdvance 2 ⟨0x107D193BE1338EDC#64, 0x3EBEF563F702E8C7#64⟩ = [0xE2C4B5374E28F9D8#64, 0xD2FD3CEA6E25D23B#64] ∧
    iterate refAdvance 2 ⟨0x107D193BE1338EDC#64, 0x3EBEF563F702E8C7#64⟩ = ⟨0xD27844DEE6BEEAC9#64, 0x88F20007EAC1504E#64⟩ := by
  decide

/-- V-FILL. -/
theorem test_fill :
    answer (exec .fill (stateOf ⟨some ⟨0xD114A242B6C8ACF5#64, 0x633164D57E273FBE#64⟩, false, 0#4⟩ 3#64 0#64)) =
      some (0, 0#64, 0#64, [0x93#8, 0x76#8, 0xDA#8]) := by
  decide

/-- V-FILL: `FILL 0` after reset faults UNSEEDED. -/
theorem test_fill_unseeded :
    answer (exec .fill State.reset) = some (2, 0#64, 0#64, []) ∧ statusAfter (exec .fill State.reset) = some 0x22#64 := by
  decide

/-- V-FAULT: an illegal word at a seeded instance; its words stay. -/
theorem test_illegal :
    step (withEvent (stateOf ⟨some ⟨1#64, 2#64⟩, false, 0#4⟩ 0#64 0#64) (.command 0 0x0000002C#32 0#64 0#64)) =
      .next { stateOf ⟨some ⟨1#64, 2#64⟩, true, 1#4⟩ 0#64 0#64 with responses := [(0, ⟨.fault .illegal, 0#64, 0#64, []⟩)] } := rfl

/-- V-FAULT: an illegal word at a faulted instance is refused, not a second ILLEGAL. -/
theorem test_illegal_refused :
    answer (step (withEvent (stateOf ⟨none, true, 1#4⟩ 0#64 0#64) (.command 0 0x00000000#32 0#64 0#64))) =
      some (4, 0#64, 0#64, []) := by
  decide

/-- P4: reset clears the fault; the instance is at its reset value and no longer listed. -/
theorem test_reset_event :
    step (withEvent (stateOf ⟨some ⟨1#64, 2#64⟩, true, 1#4⟩ 0#64 0#64) (.reset 0)) = .next State.reset := rfl

/-- The word of a table row is the first command a platform runs after reset. -/
theorem test_with_fetch_word :
    answer (step (State.reset.withFetchWord 32 0x12)) = some (2, 0#64, 0#64, []) ∧
    answer (step (State.reset.withFetchWord 32 0x01)) = some (0, 0#64, 0#64, []) ∧
    answer (step (State.reset.withFetchWord 32 0x100)) = some (1, 0#64, 0#64, []) := by
  decide

/-! ### The assembler, against the programs of section 3 -/

theorem test_assemble_seed :
    assembleLine "SEED 42".toList = some ⟨0x00000001#32, 0x2A#64, 0#64⟩ ∧
    assembleLine "SEED 0xFFFFFFFFFFFFFFFFFFFFFFFFFFFFFFFF".toList =
      some ⟨0x00000001#32, 0xFFFFFFFFFFFFFFFF#64, 0xFFFFFFFFFFFFFFFF#64⟩ := by
  decide

theorem test_assemble_loadstate :
    assembleLine "LOADSTATE 0xE2C4B5374E28F9D9, 0xD2FD3CEA6E25D23B".toList =
      some ⟨0x00000002#32, 0xE2C4B5374E28F9D9#64, 0xD2FD3CEA6E25D23B#64⟩ := by
  decide

theorem test_assemble_negative :
    assembleLine "RANGE_I64 -5, 5".toList = some ⟨0x00000018#32, 0xFFFFFFFFFFFFFFFB#64, 5#64⟩ ∧
    assembleLine "RANGE_I32 -5, 5".toList = some ⟨0x0000001A#32, 0x00000000FFFFFFFB#64, 5#64⟩ := by
  decide

theorem test_assemble_others :
    assembleLine "BERNOULLI 0.5".toList = some ⟨0x00000011#32, 0x3FE0000000000000#64, 0#64⟩ ∧
    assembleLine "FILL 11".toList = some ⟨0x00000021#32, 0xB#64, 0#64⟩ ∧
    assembleLine "NEXT".toList = some ⟨0x00000012#32, 0#64, 0#64⟩ ∧
    assembleLine "BOUNDED_U32 10".toList = some ⟨0x00000016#32, 0xA#64, 0#64⟩ := by
  decide +kernel

/-- The model's choices of log entry 14: a leading `+`, and the forms of a decimal literal. -/
theorem test_assemble_choices :
    assembleLine "FILL +11".toList = some ⟨0x00000021#32, 0xB#64, 0#64⟩ ∧
    assembleLine "BERNOULLI 5e-1".toList = some ⟨0x00000011#32, 0x3FE0000000000000#64, 0#64⟩ ∧
    assembleLine "BERNOULLI .5".toList = some ⟨0x00000011#32, 0x3FE0000000000000#64, 0#64⟩ ∧
    assembleLine "BERNOULLI 1".toList = some ⟨0x00000011#32, 0x3FF0000000000000#64, 0#64⟩ := by
  decide +kernel

/-- What is no line: an unknown name, a missing or a spare operand, a negative unsigned operand, a value outside the width. -/
theorem test_assemble_refused :
    assembleLine "U65".toList = none ∧ assembleLine "FILL".toList = none ∧ assembleLine "U64 1".toList = none ∧
    assembleLine "RANGE_U64 -5, 5".toList = none ∧ assembleLine "BOUNDED_U32 4294967296".toList = none := by
  decide

/-! ### Witnesses: each hypothesis of an obligation is met by a concrete state and operands -/

/-- Instance 0 after reset, seeded with (1, `w`), and faulted. -/
def fresh : State := stateOf Block.reset 0#64 0#64
def ready : State := drawing 5#64 0#64 0#64
def faulted : State := stateOf ⟨some ⟨1#64, 5#64⟩, true, 1#4⟩ 0#64 0#64

theorem witness_ParametersAreLegal : (⟨1#64, 0#64⟩ : GenState) ≠ ⟨0#64, 0#64⟩ ∧ instanceExists 0 = true := by decide

theorem witness_NoLegalParameterIsShutOut :
    refSeedMult.getLsbD 0 = true ∧ refSeedFallback ≠ 0#128 ∧
    1 ≤ 1 ∧
    ∀ x y : Word, ¬(x = 0#64 ∧ y = 0#64) → (fun x y : Word => (y, x)) x y ≠ (0#64, 0#64) := by
  refine ⟨by decide, by decide, le_refl 1, fun x y h hc => h ?_⟩
  simp only [Prod.mk.injEq] at hc
  exact ⟨hc.2, hc.1⟩

/-- One pattern for each of NaN, infinity, a normal and a subnormal value, and zero. -/
theorem witness_Binary64Reading :
    f64FromBits 0x7FF8000000000000#64 = .nan ∧ f64FromBits 0xFFF0000000000000#64 = .inf true ∧
    f64FromBits 0x3FF0000000000000#64 = .finite (2 ^ 1074) ∧ f64FromBits 0x8000000000000001#64 = .finite (-1) ∧
    f64FromBits 0#64 = .finite 0 := by
  decide +kernel

theorem witness_Binary32Reading :
    f32FromBits 0x7FC00000#32 = .nan ∧ f32FromBits 0xFF800000#32 = .inf true ∧ f32FromBits 0x3F800000#32 = .finite (2 ^ 149) ∧
    f32FromBits 0x80000001#32 = .finite (-1) ∧ f32FromBits 0#32 = .finite 0 := by
  decide

theorem witness_OrderedLessThan :
    ltF64 (.inf true) (.finite 0) = true ∧ ltF64 (.finite 0) (.inf false) = true ∧ FloatVal.finite 0 ≠ .nan ∧
    FloatVal.inf true ≠ .nan := by
  decide

theorem witness_ResetEventRestoresOneInstance :
    (withEvent faulted (.reset 0)).pending = [.reset 0] ∧ instanceExists 0 = true := by
  decide

/-- The clause of an instance that has faulted, and the clause of one that has not, with and without a new fault. -/
theorem witness_FirstFaultIsKeptUntilReset :
    (∃ t, step (withEvent faulted (.command 0 0x12#32 0#64 0#64)) = .next t ∧ (faulted.block 0).fault = true) ∧
    (∃ t, step (withEvent fresh (.command 0 0x12#32 0#64 0#64)) = .next t ∧ (fresh.block 0).fault = false ∧
      (t.block 0).fault = true) ∧
    ∃ t, step (withEvent ready (.command 0 0x12#32 0#64 0#64)) = .next t ∧ (ready.block 0).fault = false :=
  ⟨⟨_, rfl, rfl⟩, ⟨_, rfl, rfl, rfl⟩, ⟨_, rfl, rfl⟩⟩

theorem witness_SeededSetByConstructionClearedByReset :
    (∃ t, step (withEvent ready (.reset 0)) = .next t ∧ (ready.block 0).seeded = true ∧ (t.block 0).seeded = false) ∧
    ∃ t, step (withEvent fresh (.command 0 0x02#32 1#64 0#64)) = .next t ∧ (fresh.block 0).seeded = false ∧
      (t.block 0).seeded = true :=
  ⟨⟨_, rfl, rfl, rfl⟩, ⟨_, rfl, rfl, rfl⟩⟩

theorem inv_ready : (drawing 5#64 0#64 0#64).Inv := by
  refine ⟨⟨List.pairwise_singleton _ _, ?_⟩, ?_, ?_⟩ <;> intro e he <;> rw [List.mem_singleton.1 he] <;> decide

theorem witness_EveryStepKeepsTheInvariant :
    ready.Inv ∧ (∃ t, step { ready with pending := [.command 0 0x12#32 0#64 0#64] } = .next t) ∧
    (ready.block 0).xy = some ⟨1#64, 5#64⟩ :=
  ⟨inv_ready, ⟨_, rfl⟩, rfl⟩

theorem witness_LegalWordsAreTheCommands : legal 0x0000002C#32 = false ∧ legal 0x00000101#32 = false ∧
    fresh.current.fault = false ∧ ready.current.fault = false := by
  decide

/-- The high half of OPA, and all of OPB, differ; BOUNDED_U32 reads neither. -/
theorem witness_IgnoredOperandBitsChangeNothing :
    0xFFFFFFFF0000000A#64 &&& opaBits .boundedU32 = (drawing 5#64 0xA#64 0#64).port.opa &&& opaBits .boundedU32 ∧
    0xFFFFFFFFFFFFFFFF#64 &&& opbBits .boundedU32 = (drawing 5#64 0xA#64 0#64).port.opb &&& opbBits .boundedU32 := by
  decide

theorem witness_ResponsePlacement :
    (∃ t r, exec .u32 ready = .next t ∧ t.responses = (ready.port.target, r) :: ready.responses ∧ r.status.code = 0) ∧
    (∃ t r, exec .bool ready = .next t ∧ t.responses = (ready.port.target, r) :: ready.responses) ∧
    ∃ t r, exec .split faulted = .next t ∧ t.responses = (faulted.port.target, r) :: faulted.responses ∧ r.status.code = 4 :=
  ⟨⟨_, _, rfl, rfl, rfl⟩, ⟨_, _, rfl, rfl⟩, ⟨_, _, rfl, rfl, rfl⟩⟩

theorem witness_AssembledLinesAreCommands :
    assembleLine "RANGE_U64 10, 20".toList = some ⟨0x17#32, 10#64, 20#64⟩ := by
  decide

/-- A command that reads the low half of OPA alone, and one that reads both buses whole. -/
theorem witness_EveryCommandCanBeWritten :
    0xFFFFFFFF#64 &&& opaBits .boundedU32 = 0xFFFFFFFF#64 ∧ 0#64 &&& opbBits .boundedU32 = 0#64 ∧
    0xFFFFFFFFFFFFFFFF#64 &&& opaBits .seed = 0xFFFFFFFFFFFFFFFF#64 ∧ 1#64 &&& opbBits .seed = 1#64 := by
  decide

theorem witness_SeedConstructsTheMixedState : fresh.current.fault = false ∧ ready.current.fault = false := by decide

theorem witness_AvalancheIsABijection : refSeedMult.getLsbD 0 = true ∧ (1#128).getLsbD 0 = true := by decide

/-- A value command that draws, one that is refused, and one that faults. -/
theorem witness_DrawsAreTheOnlyMutation :
    Instr.isValue .split = true ∧ (∃ t, exec .split ready = .next t) ∧ (∃ t, exec .fill ready = .next t) ∧
    (∃ t, exec .u64 faulted = .next t) ∧ ∃ t, exec .u64 fresh = .next t :=
  ⟨rfl, ⟨_, rfl⟩, ⟨_, rfl⟩, ⟨_, rfl⟩, ⟨_, rfl⟩⟩

theorem witness_LoadstateConstructsTheGivenState :
    (stateOf Block.reset 1#64 0#64).current.fault = false ∧
    ¬((stateOf Block.reset 1#64 0#64).port.opa = 0#64 ∧ (stateOf Block.reset 1#64 0#64).port.opb = 0#64) ∧
    ¬((stateOf Block.reset 0#64 1#64).port.opa = 0#64 ∧ (stateOf Block.reset 0#64 1#64).port.opb = 0#64) ∧
    fresh.current.fault = false ∧ fresh.port.opa = 0#64 ∧ fresh.port.opb = 0#64 := by
  decide

/-- Two platforms that hold different states, LOADSTATE (0, 1) and SEED. -/
theorem witness_SameConstructionSameResponses :
    ready.Inv ∧ State.reset.Inv ∧ instanceExists 0 = true ∧ (ready.block 0).fault = false ∧
    (State.reset.block 0).fault = false ∧
    (Instr.seed = .seed ∨ (Instr.seed = .loadstate ∧ ¬(0#64 = 0#64 ∧ 0#64 = 0#64))) ∧
    (Instr.loadstate = .seed ∨ (Instr.loadstate = .loadstate ∧ ¬(0#64 = 0#64 ∧ 1#64 = 0#64))) := by
  refine ⟨inv_ready, ⟨⟨List.Pairwise.nil, ?_⟩, ?_, ?_⟩, rfl, rfl, rfl, .inl rfl, .inr ⟨rfl, by decide⟩⟩ <;>
    intro e he <;> cases he

theorem witness_OpenF64Pattern :
    (0x2000#64).getLsbD 13 = true ∧ (∀ j < 13, (0x2000#64).getLsbD j = false) ∧ (open01F64 0x2000#64).toNat % 2 = 0 ∧
    ∀ j < 64, (0#64).getLsbD j = false := by
  decide

theorem witness_OpenF32Pattern :
    (0x1FFFFFFFF#64).toNat / 2 ^ 32 = (0x100000000#64).toNat / 2 ^ 32 ∧ (0x100000000#64).getLsbD 32 = true ∧
    ∀ j < 32, (0x0FFFFFFFF#64).getLsbD (32 + j) = false := by
  decide

/-- The patterns of 2.0 and of -1.0. -/
theorem witness_BernoulliComparison :
    f64FromBits 0x4000000000000000#64 = .finite (2 ^ 1075) ∧ (2 : Int) ^ 1074 < 2 ^ 1075 ∧
    f64FromBits 0xBFF0000000000000#64 = .finite (-2 ^ 1074) ∧ -(2 : Int) ^ 1074 < 0 := by
  decide +kernel

theorem witness_FloatResultsInTheOpenInterval : ctz64 1#64 < 64 ∧ ctz64 0x8000000000000000#64 < 64 ∧ ctz64 0#64 = 64 := by
  decide

/-- The two ends of the range of `k`. -/
theorem witness_TrailingZeroCounts : 0 < 64 ∧ ctz64 1#64 = 0 ∧ 63 < 64 ∧ ctz64 0x8000000000000000#64 = 63 := by decide

/-- `lo = hi`, the full span, unsigned and signed, and a span of 1. -/
theorem witness_RangeContainment :
    1 ≤ (1#64).toNat ∧ (5#64).toNat ≤ (5#64).toNat ∧ (0#64).toNat ≤ (0xFFFFFFFFFFFFFFFF#64).toNat ∧
    (0x8000000000000000#64).toInt ≤ (0x7FFFFFFFFFFFFFFF#64).toInt ∧ (0xFFFFFFFFFFFFFFFF#64).toInt ≤ (0#64).toInt ∧
    (0#32).toNat ≤ (0xFFFFFFFF#32).toNat ∧ (0x80000000#32).toInt ≤ (0x7FFFFFFF#32).toInt := by
  decide

/-- A span of 1 has the one offset 0, so all its counts are the same; the span 11 has the offsets 0 to 10. -/
theorem witness_MultiplyHighBias :
    0 < (0#32 : Half).toNat + 1 ∧ 10 < (10#32 : Half).toNat + 1 ∧
    ∀ k, k < (0#32 : Half).toNat + 1 →
      countWords (fun w => bnd32 w 0#32 == BitVec.ofNat 32 k) = countWords (fun w => bnd32 w 0#32 == BitVec.ofNat 32 0) := by
  refine ⟨by decide, by decide, fun k hk => ?_⟩
  have h0 : k = 0 := by simpa using hk
  rw [h0]

theorem witness_BoolReturnsTheTopBit : ready.Ready ⟨1#64, 5#64⟩ := by decide

theorem witness_BernoulliReturnsTheTrial : (drawing 5#64 0x3FE0000000000000#64 0#64).Ready ⟨1#64, 5#64⟩ := by decide

theorem witness_WordCommandsReturnTheWord : (drawing 0xFFFFFFFFFFFFFFFF#64 0#64 0#64).Ready ⟨1#64, 0xFFFFFFFFFFFFFFFF#64⟩ := by
  decide

theorem witness_BoundedReturnsTheScaledWord : (drawing 5#64 0xFFFFFFFF#64 0#64).Ready ⟨1#64, 5#64⟩ := by decide

/-- The full span, `lo < hi`, `lo = hi`, and `lo > hi`. -/
theorem witness_RangeU64ReturnsTheScaledWord :
    (drawing 5#64 0#64 0xFFFFFFFFFFFFFFFF#64).Ready ⟨1#64, 5#64⟩ ∧ 0xFFFFFFFFFFFFFFFF#64 - 0#64 = 0xFFFFFFFFFFFFFFFF#64 ∧
    (drawing 5#64 10#64 20#64).Ready ⟨1#64, 5#64⟩ ∧ 20#64 - 10#64 ≠ 0xFFFFFFFFFFFFFFFF#64 ∧ (10#64).toNat ≤ (20#64).toNat ∧
    (drawing 5#64 7#64 7#64).Ready ⟨1#64, 5#64⟩ ∧ (drawing 5#64 20#64 10#64).Ready ⟨1#64, 5#64⟩ ∧
    10#64 - 20#64 ≠ 0xFFFFFFFFFFFFFFFF#64 := by
  decide

/-- The full signed span, the pair (0, -1), whose distance is also the full span, and a signed range across zero. -/
theorem witness_RangeI64ReturnsTheScaledWord :
    (drawing 5#64 0x8000000000000000#64 0x7FFFFFFFFFFFFFFF#64).Ready ⟨1#64, 5#64⟩ ∧
    0x7FFFFFFFFFFFFFFF#64 - 0x8000000000000000#64 = 0xFFFFFFFFFFFFFFFF#64 ∧
    (drawing 5#64 0#64 0xFFFFFFFFFFFFFFFF#64).Ready ⟨1#64, 5#64⟩ ∧
    (drawing 5#64 0xFFFFFFFFFFFFFFFB#64 5#64).Ready ⟨1#64, 5#64⟩ ∧ (0xFFFFFFFFFFFFFFFB#64).toInt ≤ (5#64).toInt ∧
    5#64 - 0xFFFFFFFFFFFFFFFB#64 ≠ 0xFFFFFFFFFFFFFFFF#64 := by
  decide

theorem witness_RangeU32ReturnsTheScaledWord :
    (drawing 5#64 0#64 0xFFFFFFFF#64).Ready ⟨1#64, 5#64⟩ ∧ (0#64).toNat % 2 ^ 32 ≤ (0xFFFFFFFF#64).toNat % 2 ^ 32 ∧
    (drawing 5#64 7#64 7#64).Ready ⟨1#64, 5#64⟩ ∧ (drawing 5#64 20#64 10#64).Ready ⟨1#64, 5#64⟩ := by
  decide

theorem witness_RangeI32ReturnsTheScaledWord :
    (drawing 5#64 0x80000000#64 0x7FFFFFFF#64).Ready ⟨1#64, 5#64⟩ ∧
    ((0x80000000#64).setWidth 32 : Half).toInt ≤ ((0x7FFFFFFF#64).setWidth 32 : Half).toInt ∧
    (drawing 5#64 7#64 7#64).Ready ⟨1#64, 5#64⟩ := by
  decide

theorem witness_OpenCommandsReturnTheFloats : (drawing 0#64 0#64 0#64).Ready ⟨1#64, 0#64⟩ := by decide

theorem witness_SplitReturnsTheChild : ready.Ready ⟨1#64, 5#64⟩ := by decide

theorem witness_SplitChildCanBeLoaded :
    ready.Ready ⟨1#64, 5#64⟩ ∧
    ∃ t r, exec .split ready = .next t ∧ t.responses = (ready.port.target, r) :: ready.responses ∧
      (stateOf Block.reset r.res0 r.res1).current.fault = false ∧ (stateOf Block.reset r.res0 r.res1).port.opa = r.res0 ∧
      (stateOf Block.reset r.res0 r.res1).port.opb = r.res1 :=
  ⟨by decide, _, _, rfl, rfl, rfl, rfl, rfl⟩

theorem witness_FillReturnsTheBytes : (drawing 5#64 11#64 0#64).Ready ⟨1#64, 5#64⟩ ∧ 10 < (11#64).toNat := by decide

theorem witness_EmptyFillIsANoOp : ready.Ready ⟨1#64, 5#64⟩ ∧ ready.port.opa = 0#64 := by decide

/-- No byte, 24 bytes (P5), and 11 bytes. -/
theorem witness_FillStreamsTheWordsOfU64 :
    instanceExists 0 = true ∧ (ready.block 0).fault = false ∧ (ready.block 0).xy = some ⟨1#64, 5#64⟩ ∧
    (0 < 8 ∧ 8 * 0 + 0 < 2 ^ 64) ∧ (0 < 8 ∧ 8 * 3 + 0 < 2 ^ 64) ∧ (3 < 8 ∧ 8 * 1 + 3 < 2 ^ 64) := by
  decide

theorem witness_HostStoresTheBytes : ([0x50#8, 0xF7#8] : List Byte)[1]? = some 0xF7#8 ∧
    (hostWrites 16 [0x50#8, 0xF7#8])[1]? = some (17, 0xF7#8) := by
  decide

theorem witness_UnseededValueCommandFaults :
    Instr.isValue .fill = true ∧ fresh.current.fault = false ∧ fresh.current.xy = none := by
  decide

theorem witness_FaultedInstanceRefuses :
    (∃ t, step (withEvent faulted (.reset 0)) = .next t ∧ (faulted.block 0).fault = true ∧ (t.block 0).fault = false) ∧
    decode 0x0000002C#32 ≠ .ok .rdstatus ∧ decode 0x00000012#32 ≠ .ok .rdstatus ∧ faulted.current.fault = true :=
  ⟨⟨_, rfl, rfl, rfl⟩, by decide, by decide, rfl⟩

/-- One witness for each clause, in their order. -/
theorem witness_OrderOfChecks :
    decode 0x00000003#32 = .ok .rdstatus ∧
    (decode 0x00000000#32 ≠ .ok .rdstatus ∧ faulted.current.fault = true) ∧
    (fresh.current.fault = false ∧ ∀ i, decode 0x00000000#32 ≠ .ok i) ∧
    (decode 0x00000021#32 = .ok .fill ∧ Instr.isValue .fill = true ∧ fresh.current.xy = none) ∧
    (decode 0x00000002#32 = .ok .loadstate ∧ fresh.port.opa = 0#64 ∧ fresh.port.opb = 0#64) ∧
    (ready.current.fault = false ∧ decode 0x00000012#32 = .ok .u64 ∧ (Instr.isValue .u64 = true → ready.current.xy ≠ none) ∧
      (Instr.u64 = .loadstate → ¬(ready.port.opa = 0#64 ∧ ready.port.opb = 0#64))) := by
  refine ⟨by decide, by decide, ⟨by decide, fun i => ?_⟩, by decide, by decide, by decide⟩
  cases i <;> decide

/-- A word that decodes, and an illegal word at an instance that has not faulted and at one that has. -/
theorem witness_StepRunsTheDecodedCommand :
    (withEvent ready (.command 0 0x00000012#32 0#64 0#64)).pending = [.command 0 0x00000012#32 0#64 0#64] ∧
    instanceExists 0 = true ∧ decode 0x00000012#32 = .ok .u64 ∧ (ready.block 0).fault = false ∧ (faulted.block 0).fault = true ∧
    ∀ i, decode 0x0000002C#32 ≠ .ok i := by
  refine ⟨by decide, rfl, rfl, rfl, rfl, fun i => ?_⟩
  cases i <;> decide

/-- The platform never holds the instance whose number is `nInstances`. -/
theorem witness_IdleAndAbsentInstance :
    State.reset.pending = [] ∧
    (withEvent ready (.reset nInstances)).pending = .reset nInstances :: [] ∧
    instanceExists (HostEvent.reset nInstances).target = false := by
  refine ⟨rfl, rfl, ?_⟩
  rw [← Bool.not_eq_true, HostEvent.target, instanceExists_iff]
  exact lt_irrefl _

theorem witness_EachStepTakesOneEvent :
    (∃ t, step (withEvent ready (.command 0 0x2C#32 0#64 0#64)) = .next t) ∧ ∃ t, step (withEvent ready (.reset 0)) = .next t :=
  ⟨⟨_, rfl⟩, ⟨_, rfl⟩⟩

/-- A run of a command and a reset, for instance 0, which they name, and for instance 1, which they do not. -/
theorem witness_InstancesAreIsolated :
    ∃ t, run 2 { ready with pending := [.command 0 0x00000012#32 0#64 0#64, .reset 0] } = .next t ∧
      (State.onlyEventsOf { ready with pending := [.command 0 0x00000012#32 0#64 0#64, .reset 0] } 1).pending = [] :=
  ⟨_, rfl, rfl⟩

end Sys2Proof.Tests.Slice0
end

/-! ### Scope: the parameters (spec/00_scope.md R7 to R10), and the floating-point readings (R14) -/

namespace Sys2Proof.Machine

/-! ### The parameters -/

theorem seedMult_odd : seedMult.getLsbD 0 = true := by
  rw [seedMult, BitVec.getLsbD_append]
  rfl

/-- An odd 128-bit value is its upper 127 bits followed by a 1. -/
theorem odd_eq_append_one {m : Wide} (h : m.getLsbD 0 = true) : m = m.extractLsb' 1 127 ++ 1#1 := by
  apply BitVec.eq_of_getLsbD_eq
  intro j hj
  rw [BitVec.getLsbD_append]
  cases j with
  | zero => simpa using h
  | succ j => simp [show j < 127 by omega, Nat.add_comm]

theorem nonZero_of_ne_zero {v : Wide} (h : v ≠ 0#128) : nonZero v = v := if_neg h

/-! ### The reading of a sign, an exponent and a fraction -/

theorem floatOf_eq_nan_iff (fbits emax : Nat) (s : Bool) (e f : Nat) :
    floatOf fbits emax s e f = .nan ↔ e = emax ∧ f ≠ 0 := by
  unfold floatOf
  by_cases he : e = emax
  · by_cases hf : f = 0 <;> simp [he, hf]
  · simp [he]

theorem floatOf_eq_inf_iff (fbits emax : Nat) (s : Bool) (e f : Nat) (n : Bool) :
    floatOf fbits emax s e f = .inf n ↔ e = emax ∧ f = 0 ∧ n = s := by
  unfold floatOf
  by_cases he : e = emax
  · by_cases hf : f = 0 <;> simp [he, hf, eq_comm]
  · simp [he]

/-- Off the exponent of all ones the datum is finite: its magnitude with the sign as a factor. -/
theorem floatOf_finite (fbits : Nat) {emax : Nat} (s : Bool) {e : Nat} (f : Nat) (he : e ≠ emax) :
    ∃ v : Int, floatOf fbits emax s e f = .finite v ∧ (v : ℚ) = (if s then -1 else 1) * (magnitude fbits e f : ℚ) := by
  refine ⟨_, if_neg he, ?_⟩
  cases s <;> simp

/-- The magnitude of a normal datum in units of `2 ^ (1 - bias - fbits)`. -/
theorem magnitude_normal (fbits : Nat) {e : Nat} (f : Nat) (bias : Int) (h0 : 0 < e) :
    (magnitude fbits e f : ℚ) * 2 ^ (1 - bias - fbits) = 2 ^ ((e : Int) - bias) * (1 + (f : ℚ) / 2 ^ fbits) := by
  obtain ⟨k, rfl⟩ := Nat.exists_eq_add_one.mpr h0
  have hsplit : (2 : ℚ) ^ (((k + 1 : Nat) : Int) - bias) = 2 ^ (1 - bias - fbits) * 2 ^ k * 2 ^ fbits := by
    rw [← zpow_natCast 2 k, ← zpow_natCast 2 fbits, ← zpow_add₀ two_ne_zero, ← zpow_add₀ two_ne_zero]
    congr 1
    push_cast
    ring
  rw [magnitude, if_neg h0.ne', hsplit, Nat.add_sub_cancel]
  push_cast
  field_simp

/-- The magnitude of a subnormal datum or a zero in the same units. -/
theorem magnitude_subnormal (fbits f : Nat) (bias : Int) :
    (magnitude fbits 0 f : ℚ) * 2 ^ (1 - bias - fbits) = 2 ^ (1 - bias) * ((f : ℚ) / 2 ^ fbits) := by
  rw [magnitude, if_pos rfl, zpow_sub₀ two_ne_zero, zpow_natCast]
  ring

/-- A finite datum has the value of its magnitude with the sign as a factor. -/
theorem floatOf_value {fbits emax : Nat} (s : Bool) {e f : Nat} {unit x : ℚ} (he : e ≠ emax)
    (hx : (magnitude fbits e f : ℚ) * unit = x) :
    ∃ v : Int, floatOf fbits emax s e f = .finite v ∧ (v : ℚ) * unit = (if s then -1 else 1) * x := by
  obtain ⟨v, hv, hval⟩ := floatOf_finite fbits s f he
  exact ⟨v, hv, by rw [hval, mul_assoc, hx]⟩

/-- The reading of R14 for a format of `fbits` fraction bits: NaN, the infinities, the normal and the subnormal values. -/
theorem floatOf_reading (fbits : Nat) {emax : Nat} (bias : Int) (s : Bool) (e f : Nat) (hmax : 0 < emax) :
    (floatOf fbits emax s e f = .nan ↔ e = emax ∧ f ≠ 0) ∧
    (∀ n, floatOf fbits emax s e f = .inf n ↔ e = emax ∧ f = 0 ∧ n = s) ∧
    (0 < e → e < emax → ∃ v : Int, floatOf fbits emax s e f = .finite v ∧
      (v : ℚ) * 2 ^ (1 - bias - fbits) = (if s then -1 else 1) * 2 ^ ((e : Int) - bias) * (1 + (f : ℚ) / 2 ^ fbits)) ∧
    (e = 0 → ∃ v : Int, floatOf fbits emax s e f = .finite v ∧
      (v : ℚ) * 2 ^ (1 - bias - fbits) = (if s then -1 else 1) * 2 ^ (1 - bias) * ((f : ℚ) / 2 ^ fbits)) := by
  simp only [mul_assoc]
  refine ⟨floatOf_eq_nan_iff .., floatOf_eq_inf_iff _ _ _ _ _, fun h0 h1 => ?_, fun h0 => ?_⟩
  · exact floatOf_value s h1.ne (magnitude_normal fbits f bias h0)
  · subst h0
    exact floatOf_value s hmax.ne (magnitude_subnormal fbits f bias)

/-! ### The fields of a pattern -/

/-- A field of a pattern in exact arithmetic. -/
theorem extractLsb'_toNat_div {w : Nat} (b : BitVec w) (start len : Nat) :
    (b.extractLsb' start len).toNat = b.toNat / 2 ^ start % 2 ^ len := by
  rw [BitVec.extractLsb'_toNat, Nat.shiftRight_eq_div_pow]

theorem f64FromBits_eq (b : Word) :
    f64FromBits b = floatOf 52 2047 b.msb (b.toNat / 2 ^ 52 % 2 ^ 11) (b.toNat % 2 ^ 52) := by
  rw [f64FromBits, extractLsb'_toNat_div, extractLsb'_toNat_div, pow_zero, Nat.div_one, BitVec.msb_eq_getLsbD_last]

theorem f32FromBits_eq (b : Half) :
    f32FromBits b = floatOf 23 255 b.msb (b.toNat / 2 ^ 23 % 2 ^ 8) (b.toNat % 2 ^ 23) := by
  rw [f32FromBits, extractLsb'_toNat_div, extractLsb'_toNat_div, pow_zero, Nat.div_one, BitVec.msb_eq_getLsbD_last]

/-! ### The order of the data -/

/-- A datum's place in the order of the values with the two infinities at the ends. NaN, which has no place, is put at the
bottom; `ltF64_iff` keeps it apart. -/
def FloatVal.place : FloatVal → WithBot (WithTop Int)
  | .nan => ⊥
  | .inf true => ⊥
  | .inf false => ⊤
  | .finite v => ((v : WithTop Int) : WithBot (WithTop Int))

theorem finite_place_lt_top (v : Int) : ((v : WithTop Int) : WithBot (WithTop Int)) < ⊤ :=
  WithBot.coe_lt_coe.mpr (WithTop.coe_lt_top v)

/-- `lt_f64` is the order of the places, off NaN (R14). -/
theorem ltF64_iff (p q : FloatVal) : ltF64 p q = true ↔ p ≠ .nan ∧ q ≠ .nan ∧ p.place < q.place := by
  rcases p with _ | ⟨_ | _⟩ | a <;> rcases q with _ | ⟨_ | _⟩ | b <;> simp [ltF64, FloatVal.place, finite_place_lt_top]

/-- Off NaN a datum is known by its place. -/
theorem FloatVal.place_injective {p q : FloatVal} (hp : p ≠ .nan) (hq : q ≠ .nan) (h : p.place = q.place) : p = q := by
  rcases p with _ | ⟨_ | _⟩ | a <;> rcases q with _ | ⟨_ | _⟩ | b <;> simp_all [FloatVal.place]

theorem ltF64_nan_right (p : FloatVal) : ltF64 p .nan = false := by
  rw [← Bool.not_eq_true, ltF64_iff]
  exact fun h => h.2.1 rfl

theorem ltF64_irrefl (p : FloatVal) : ltF64 p p = false := by
  rw [← Bool.not_eq_true, ltF64_iff]
  exact fun h => lt_irrefl _ h.2.2

theorem ltF64_trans {p q r : FloatVal} (hpq : ltF64 p q = true) (hqr : ltF64 q r = true) : ltF64 p r = true := by
  rw [ltF64_iff] at *
  obtain ⟨hp, -, hpq⟩ := hpq
  obtain ⟨-, hr, hqr⟩ := hqr
  exact ⟨hp, hr, hpq.trans hqr⟩

theorem ltF64_total {p q : FloatVal} (hp : p ≠ .nan) (hq : q ≠ .nan) :
    ltF64 p q = true ∨ p = q ∨ ltF64 q p = true := by
  obtain h | h | h := lt_trichotomy p.place q.place
  · exact .inl ((ltF64_iff p q).mpr ⟨hp, hq, h⟩)
  · exact .inr (.inl (FloatVal.place_injective hp hq h))
  · exact .inr (.inr ((ltF64_iff q p).mpr ⟨hq, hp, h⟩))

/-- Both zeros are read as the same datum (R14). -/
theorem f64FromBits_negZero : f64FromBits 0x8000000000000000#64 = f64FromBits 0#64 := by decide

end Sys2Proof.Machine

section
open Sys2Proof Sys2Proof.Machine

/-- Settles O3: the reading of a format of 52 fraction bits and bias 1023, at the fields of the pattern. -/
theorem binary64Reading : Obligations.Binary64Reading := by
  intro b
  dsimp only
  rw [f64FromBits_eq]
  exact floatOf_reading 52 1023 b.msb _ _ (by decide)

/-- Settles O59: the reading of a format of 23 fraction bits and bias 127, at the fields of the pattern. -/
theorem binary32Reading : Obligations.Binary32Reading := by
  intro b
  dsimp only
  rw [f32FromBits_eq]
  exact floatOf_reading 23 127 b.msb _ _ (by decide)

/-- Settles O4: the comparisons by kind of datum are `lt_f64`'s own, and the order laws are those of the places. -/
theorem orderedLessThan : Obligations.OrderedLessThan := by
  refine ⟨fun _ _ => rfl, fun _ => ⟨rfl, rfl⟩, rfl, fun p => ⟨rfl, ltF64_nan_right p⟩, ?_, ltF64_irrefl,
    fun _ _ _ => ltF64_trans, fun _ _ => ltF64_total⟩
  rw [f64FromBits_negZero]
  exact ltF64_irrefl _

/-- Settles O1: each parameter meets its rule by the way it is built from its free constant. -/
theorem parametersAreLegal : Obligations.ParametersAreLegal :=
  ⟨seedMult_odd, nonZero_ne_zero _, Nat.le_add_left 1 _, instanceExists_iff, fun _ hg => keepNonZero_ne_zero _ hg⟩

/-- Settles O2: what is built into a parameter changes no value that meets the parameter's rule. -/
theorem noLegalParameterIsShutOut : Obligations.NoLegalParameterIsShutOut := by
  refine ⟨⟨rfl, fun m hm => ⟨_, odd_eq_append_one hm⟩⟩, ⟨rfl, fun v hv => nonZero_of_ne_zero hv⟩,
    ⟨rfl, fun f hf x y => keepNonZero_of_legal fun hg => hf x y ?_⟩, rfl,
    fun n hn => ⟨n - 1, (Nat.sub_add_cancel hn).symm⟩⟩
  rintro ⟨rfl, rfl⟩
  exact hg rfl

end

/-! ### State (spec/10_state.md): what a step writes, the invariant, STATUS, and the record of responses -/

namespace Sys2Proof.Machine

/-! ### The one block a step can write -/

@[simp] theorem Block.recording_seeded (b : Block) (c : FaultKind) : (b.recording c).seeded = b.seeded := by
  unfold Block.recording
  split <;> rfl

/-- Why a step from `s` to `t` leaves the value `b` in block `k`: its reset (R190), a new fault (R162), a construction
(R81, R91), or the draws of a value command (R88). -/
inductive Written (s t : State) (k : Nat) (b : Block) : Prop where
  | reset (he : s.pending.head? = some (.reset k)) (hb : b = Block.reset)
  | fault (c : FaultKind) (hf : (s.block k).fault = false) (hb : b = (s.block k).recording c)
      (hr : t.responses = (k, Response.ofFault c) :: s.responses)
  | construct (w : CmdWord) (opa opb : Word) (g : GenState) (he : s.pending.head? = some (.command k w opa opb))
      (hd : decode w = .ok .seed ∨ decode w = .ok .loadstate) (hg : g ≠ ⟨0#64, 0#64⟩) (hb : b = (s.block k).holding g)
  | draws (n : Nat) (g : GenState) (hx : (s.block k).xy = some g) (hb : b = (s.block k).holding (iterate advance n g))

/-- A command changes no block, or writes the one it was issued to. -/
theorem execWord_writes {s t : State} {k : Nat} {w : CmdWord} {opa opb : Word} {rest : List HostEvent}
    (hp : s.pending = .command k w opa opb :: rest)
    (ht : execWord w ({ s with pending := rest }.issue k opa opb) = .next t) :
    t.blocks = s.blocks ∨ ∃ b, t.blocks = storeBlock k b s.blocks ∧ Written s t k b := by
  have he : s.pending.head? = some (.command k w opa opb) := by rw [hp]; rfl
  obtain ⟨i, hd, h⟩ | ⟨-, -, -, h⟩ | ⟨-, -, hf, h⟩ := execWord_cases w ({ s with pending := rest }.issue k opa opb)
  · rw [h] at ht
    cases exec_cases i ({ s with pending := rest }.issue k opa opb) with
    | status _ h =>
      cases h.symm.trans ht
      exact .inl rfl
    | refused _ _ h =>
      cases h.symm.trans ht
      exact .inl rfl
    | unseeded _ hf _ h =>
      cases h.symm.trans ht
      exact .inr ⟨_, rfl, .fault .unseeded hf rfl rfl⟩
    | zeroState _ hf _ h =>
      cases h.symm.trans ht
      exact .inr ⟨_, rfl, .fault .zeroState hf rfl rfl⟩
    | construct _ g hg hi h =>
      cases h.symm.trans ht
      have hc : decode w = .ok .seed ∨ decode w = .ok .loadstate := by
        obtain ⟨rfl, -⟩ | ⟨rfl, -⟩ := hi
        exacts [.inl hd, .inr hd]
      exact .inr ⟨_, rfl, .construct w opa opb g he hc hg rfl⟩
    | value _ g hr h =>
      cases h.symm.trans ht
      exact .inr ⟨_, rfl, .draws (drawsOf i opa) g hr.2 rfl⟩
  · cases h.symm.trans ht
    exact .inl rfl
  · cases h.symm.trans ht
    exact .inr ⟨_, rfl, .fault .illegal hf rfl rfl⟩

/-- A step changes no block, or writes one that the platform holds. -/
theorem step_writes {s t : State} (ht : step s = .next t) :
    t.blocks = s.blocks ∨
      ∃ k b, instanceExists k = true ∧ t.blocks = storeBlock k b s.blocks ∧ Written s t k b := by
  obtain ⟨-, h⟩ | ⟨k, rest, hp, hk, h⟩ | ⟨k, w, opa, opb, rest, hp, hk, h⟩ | ⟨e, rest, -, -, h⟩ := step_cases s
  · cases h.symm.trans ht
    exact .inl rfl
  · cases h.symm.trans ht
    exact .inr ⟨k, Block.reset, hk, rfl, .reset (by rw [hp]; rfl) rfl⟩
  · obtain hs | ⟨b, hb, hw⟩ := execWord_writes hp (h.symm.trans ht)
    · exact .inl hs
    · exact .inr ⟨k, b, hk, hb, hw⟩
  · cases h.symm.trans ht

/-- The same seen from one block: a step leaves it or writes it. -/
theorem step_block {s t : State} (ht : step s = .next t) (k : Nat) :
    t.block k = s.block k ∨ Written s t k (t.block k) := by
  obtain hs | ⟨j, b, -, hb, hw⟩ := step_writes ht
  · exact .inl (congrArg (lookupBlock k) hs)
  · have hblock : t.block k = if k = j then b else s.block k :=
      (congrArg (lookupBlock k) hb).trans (lookupBlock_storeBlock j k b s.blocks)
    by_cases hkj : k = j
    · subst hkj
      rw [if_pos rfl] at hblock
      exact .inr (hblock ▸ hw)
    · exact .inl (hblock.trans (if_neg hkj))

/-! ### The invariant -/

theorem State.reset_inv : State.reset.Inv :=
  ⟨⟨List.Pairwise.nil, List.forall_mem_nil _⟩, List.forall_mem_nil _, List.forall_mem_nil _⟩

theorem Block.Valid.recording {b : Block} (h : b.Valid) (c : FaultKind) : (b.recording c).Valid := by
  cases hf : b.fault with
  | true => simpa [Block.recording, hf] using h
  | false =>
    rw [Block.recording_of_ok c hf]
    refine ⟨h.1, ?_⟩
    cases c <;> simp [FaultKind.code]

theorem Block.Valid.holding {b : Block} (h : b.Valid) {g : GenState} (hg : g ≠ ⟨0#64, 0#64⟩) : (b.holding g).Valid :=
  ⟨fun he => hg (Option.some.inj he), h.2⟩

/-- From valid blocks a step writes valid values only. -/
theorem Written.valid {s t : State} {k : Nat} {b : Block} (hw : Written s t k b) (h : (s.block k).Valid) : b.Valid := by
  cases hw with
  | reset _ hb => exact hb ▸ Block.reset_valid
  | fault c _ hb _ => exact hb ▸ h.recording c
  | construct _ _ _ g _ _ hg hb => exact hb ▸ h.holding hg
  | draws n g hx hb =>
    have hg : g ≠ ⟨0#64, 0#64⟩ := fun hz => h.1 (hz ▸ hx)
    exact hb ▸ h.holding (iterate_advance_ne_zero n hg)

theorem step_inv {s t : State} (hs : s.Inv) (ht : step s = .next t) : t.Inv := by
  obtain hb | ⟨k, b, hk, hb, hw⟩ := step_writes ht
  · unfold State.Inv
    rwa [hb]
  · exact hs.store hb hk (hw.valid (hs.block_valid k))

/-- R21: under the invariant no block holds the zero state. -/
theorem State.Inv.not_both_zero {s : State} (h : s.Inv) {k : Nat} {g : GenState} (hg : (s.block k).xy = some g) :
    ¬(g.x = 0#64 ∧ g.y = 0#64) := by
  obtain ⟨x, y⟩ := g
  rintro ⟨rfl, rfl⟩
  exact (h.block_valid k).1 hg

/-! ### STATUS -/

/-- STATUS bit by bit (R25): SEEDED at 0, FAULT at 1, FAULT_CODE from 4 on, and no other bit. -/
theorem statusReg_getLsbD (b : Block) (j : Nat) :
    (statusReg b).getLsbD j =
      (decide (j = 0) && b.seeded || decide (j = 1) && b.fault || decide (4 ≤ j) && b.faultCode.getLsbD (j - 4)) := by
  rw [statusReg, BitVec.getLsbD_setWidth, BitVec.getLsbD_append, BitVec.getLsbD_append, BitVec.getLsbD_append]
  match j with
  | 0 => simp
  | 1 => simp
  | 2 => simp
  | 3 => simp
  | j + 4 =>
    have hlt : b.faultCode.getLsbD j = true → j + 4 < 64 := fun h => by
      have := BitVec.lt_of_getLsbD h
      omega
    simpa using hlt

/-- A flag as a word has the flag at bit 0 and no other bit. -/
theorem flagWord_getLsbD (c : Bool) (j : Nat) :
    (if c then 1#64 else 0#64 : Word).getLsbD j = (decide (j = 0) && c) := by
  cases c <;> simp [BitVec.getLsbD_one]

/-- The fields of STATUS put together by shifts (R26). -/
theorem statusReg_eq_or (b : Block) :
    statusReg b = (if b.seeded then 1#64 else 0#64) ||| ((if b.fault then 1#64 else 0#64) <<< 1) |||
      (b.faultCode.setWidth 64 <<< 4) := by
  apply BitVec.eq_of_getLsbD_eq
  intro j hj
  rw [statusReg_getLsbD, BitVec.getLsbD_or, BitVec.getLsbD_or, BitVec.getLsbD_shiftLeft, BitVec.getLsbD_shiftLeft,
    flagWord_getLsbD, flagWord_getLsbD, BitVec.getLsbD_setWidth]
  have h1 : j = 1 ↔ ¬ j < 1 ∧ j - 1 = 0 := by omega
  have h4 : 4 ≤ j ↔ ¬ j < 4 := by omega
  have hlt : j - 4 < 64 := by omega
  simp only [hj, h1, h4, hlt, Bool.decide_and, decide_not, decide_true, Bool.true_and, Bool.and_assoc]

/-! ### The record of responses -/

/-- A command's meaning answers one response, and with any other earlier responses the same next state and response. -/
def ReadsNoResponses (run : State → Result) : Prop :=
  ∀ (s : State) (old : List (Nat × Response)),
    ∃ t r, run s = .next t ∧ t.responses = (s.port.target, r) :: s.responses ∧
      run { s with responses := old } = .next { t with responses := (s.port.target, r) :: old }

theorem readsNoResponses_unlessFaulted {run : State → Result} (h : ReadsNoResponses run) :
    ReadsNoResponses (fun s => unlessFaulted s (run s)) := by
  intro s old
  cases hf : s.current.fault with
  | true =>
    exact ⟨_, _, unlessFaulted_of_faulted hf _, rfl,
      unlessFaulted_of_faulted (s := { s with responses := old }) hf _⟩
  | false =>
    obtain ⟨t, r, ht, hr, hold⟩ := h s old
    exact ⟨t, r, (unlessFaulted_of_ok hf _).trans ht, hr,
      (unlessFaulted_of_ok (s := { s with responses := old }) hf _).trans hold⟩

theorem readsNoResponses_valueCommand (f : Port → GenState → Response × GenState) :
    ReadsNoResponses (fun s => valueCommand s (f s.port)) := by
  intro s old
  obtain ⟨hf, h⟩ | ⟨hf, hx, h⟩ | ⟨g, hr, h⟩ := valueCommand_cases s (f s.port)
  · exact ⟨_, _, h, rfl, unlessFaulted_of_faulted (s := { s with responses := old }) hf _⟩
  · exact ⟨_, _, h, rfl, valueCommand_of_unseeded (s := { s with responses := old }) hf hx _⟩
  · exact ⟨_, _, h, rfl, valueCommand_of_ready (s := { s with responses := old }) hr _⟩

theorem exec_readsNoResponses_of_isValue {i : Instr} (h : i.isValue = true) : ReadsNoResponses (exec i) := by
  rw [funext fun s => exec_value i s h]
  exact readsNoResponses_valueCommand fun p g => (valueResponse i p g, valueState i p g)

theorem execSeed_readsNoResponses : ReadsNoResponses execSeed :=
  readsNoResponses_unlessFaulted fun _ _ => ⟨_, _, rfl, rfl, rfl⟩

theorem execLoadstate_readsNoResponses : ReadsNoResponses execLoadstate := by
  refine readsNoResponses_unlessFaulted fun s old => ?_
  by_cases hz : s.port.genState = ⟨0#64, 0#64⟩
  · exact ⟨_, _, if_pos hz, rfl, if_pos hz⟩
  · exact ⟨_, _, if_neg hz, rfl, if_neg hz⟩

theorem execRdstatus_readsNoResponses : ReadsNoResponses execRdstatus := fun _ _ => ⟨_, _, rfl, rfl, rfl⟩

theorem exec_readsNoResponses (i : Instr) : ReadsNoResponses (exec i) := by
  cases i with
  | seed => exact execSeed_readsNoResponses
  | loadstate => exact execLoadstate_readsNoResponses
  | rdstatus => exact execRdstatus_readsNoResponses
  | _ => exact exec_readsNoResponses_of_isValue rfl

end Sys2Proof.Machine

section
open Sys2Proof Sys2Proof.Machine

/-- Settles O11: what a step writes is valid, and the rest of the list is as it was. -/
theorem everyStepKeepsTheInvariant : Obligations.EveryStepKeepsTheInvariant := by
  intro s t hs ht
  have hinv := step_inv hs ht
  exact ⟨hinv, fun _ _ => hinv.not_both_zero⟩

/-- Settles O7: every field is read off the bits of STATUS. -/
theorem statusRegisterLayout : Obligations.StatusRegisterLayout := by
  intro b
  refine ⟨statusReg_eq_or b, (statusReg_getLsbD b 0).trans (by simp [Block.seeded]),
    (statusReg_getLsbD b 1).trans (by simp), ?_, ?_, ?_⟩
  all_goals
    apply BitVec.eq_of_getLsbD_eq
    intro j hj
    rw [BitVec.getLsbD_extractLsb', statusReg_getLsbD]
  · simp [show 2 + j ≠ 1 by omega, show ¬ 4 ≤ 2 + j by omega]
  · simp [hj, show 4 + j ≠ 1 by omega]
  · have : 8 + j - 4 ≥ 4 := by omega
    simp [BitVec.getLsbD_of_ge _ _ this, show 8 + j ≠ 1 by omega]

/-- Settles O8: of the values a step can write, only a new fault's differs in the two fields, and it answers its code. -/
theorem firstFaultIsKeptUntilReset : Obligations.FirstFaultIsKeptUntilReset := by
  intro s t k ht hne
  obtain hb | hw := step_block ht k
  · rw [hb]
    exact ⟨fun hf => ⟨hf, rfl⟩, fun hf => .inl ⟨hf, rfl⟩⟩
  cases hw with
  | reset he _ => exact absurd he hne
  | fault c hf hb hr =>
    rw [hb, Block.recording_of_ok c hf]
    exact ⟨fun hf' => absurd hf' (by simp [hf]), fun _ => .inr ⟨c, rfl, rfl, hr⟩⟩
  | construct _ _ _ g _ _ _ hb | draws _ g _ hb =>
    rw [hb]
    exact ⟨fun hf => ⟨hf, rfl⟩, fun hf => .inl ⟨hf, rfl⟩⟩

/-- Settles O9: of the values a step can write, a reset's alone holds no state where one was held, and a construction's alone
holds one where none was. -/
theorem seededSetByConstructionClearedByReset : Obligations.SeededSetByConstructionClearedByReset := by
  intro s t k ht
  by_cases hsame : (t.block k).seeded = (s.block k).seeded
  · rw [hsame]
    exact ⟨fun h h' => absurd h (by simp [h']), fun h h' => absurd h (by simp [h'])⟩
  obtain hb | hw := step_block ht k
  · exact absurd (congrArg Block.seeded hb) hsame
  cases hw with
  | reset he hb =>
    rw [hb]
    exact ⟨fun _ _ => he, fun _ h => (nomatch h)⟩
  | fault c _ hb _ => exact absurd (by rw [hb, Block.recording_seeded]) hsame
  | construct w opa opb _ he hd _ hb =>
    rw [hb]
    exact ⟨fun _ h => (nomatch h), fun _ _ => ⟨w, opa, opb, he, hd⟩⟩
  | draws _ _ hx hb => exact absurd (by rw [hb, Block.holding_seeded, Block.seeded, hx, Option.isSome_some]) hsame

/-- Settles O12: each command is built of operations that read the block and the port alone. -/
theorem responsesAreNotRead : Obligations.ResponsesAreNotRead := exec_readsNoResponses

/-- Settles O5: the reset platform lists no block, so each is at its reset value. -/
theorem resetLeavesEveryInstanceUnseeded : Obligations.ResetLeavesEveryInstanceUnseeded :=
  fun _ => ⟨rfl, (by decide : statusReg Block.reset = 0#64)⟩

/-- Settles O10: the reset platform lists no block. -/
theorem invariantHoldsAtReset : Obligations.InvariantHoldsAtReset := State.reset_inv

end

/-! ### Memory and ordering (spec/20_memory.md): FILL's bytes, the host's stores, and one event at a time on one block -/

namespace Sys2Proof.Machine

/-! ### A command acts on the block at hand alone -/

theorem answers_respond (s : State) (r : Response) : Answers (.next (s.respond r)) s s.current r :=
  ⟨_, rfl, rfl, fun _ _ => rfl, rfl, rfl, rfl⟩

theorem answers_setCurrent_respond (s : State) (b : Block) (r : Response) :
    Answers (.next ((s.setCurrent b).respond r)) s b r :=
  ⟨_, rfl, s.setCurrent_current b, fun _ h => s.setCurrent_block_of_ne b h, rfl, rfl, rfl⟩

/-- The command answers in every state, and what it leaves in its block and returns is a function of the operand buses and
of that block: nothing else is read. -/
def ActsLocally (run : State → Result) : Prop :=
  ∃ f : Port → Block → Block × Response, ∀ s, Answers (run s) s (f s.port s.current).1 (f s.port s.current).2

/-- The checks of R164 read the block at hand alone. -/
theorem ActsLocally.unlessFaulted {run : State → Result} (h : ActsLocally run) :
    ActsLocally (fun s => unlessFaulted s (run s)) := by
  obtain ⟨f, hf⟩ := h
  refine ⟨fun p b => if b.fault then (b, Response.refused) else f p b, fun s => ?_⟩
  beta_reduce
  cases hs : s.current.fault with
  | true =>
    rw [unlessFaulted_of_faulted hs]
    exact answers_respond s Response.refused
  | false =>
    rw [unlessFaulted_of_ok hs]
    exact hf s

theorem actsLocally_raise (c : FaultKind) : ActsLocally (fun s => .next (s.raise c)) :=
  ⟨fun _ b => (b.recording c, Response.ofFault c), fun s => answers_setCurrent_respond s _ _⟩

theorem actsLocally_construct (g : Port → GenState) : ActsLocally (fun s => .next (s.construct (g s.port))) :=
  ⟨fun p b => (b.holding (g p), Response.value 0#64), fun s => answers_setCurrent_respond s _ _⟩

theorem actsLocally_valueCommand (run : Port → GenState → Response × GenState) :
    ActsLocally (fun s => valueCommand s (run s.port)) := by
  refine ActsLocally.unlessFaulted ⟨fun p b => match b.xy with
    | none => (b.recording .unseeded, Response.ofFault .unseeded)
    | some g => (b.holding (run p g).2, (run p g).1), fun s => ?_⟩
  beta_reduce
  cases s.current.xy with
  | none => exact answers_setCurrent_respond s _ _
  | some g => exact answers_setCurrent_respond s _ _

theorem exec_actsLocally_of_isValue {i : Instr} (h : i.isValue = true) : ActsLocally (exec i) := by
  rw [funext fun s => exec_value i s h]
  exact actsLocally_valueCommand fun p g => (valueResponse i p g, valueState i p g)

theorem execSeed_actsLocally : ActsLocally execSeed :=
  (actsLocally_construct fun p => seedState seedMult seedFallback p.seed).unlessFaulted

theorem execLoadstate_actsLocally : ActsLocally execLoadstate := by
  obtain ⟨fz, hz⟩ := actsLocally_raise .zeroState
  obtain ⟨fc, hc⟩ := actsLocally_construct Port.genState
  refine ActsLocally.unlessFaulted ⟨fun p => if p.genState = ⟨0#64, 0#64⟩ then fz p else fc p, fun s => ?_⟩
  beta_reduce
  by_cases h : s.port.genState = ⟨0#64, 0#64⟩
  · rw [if_pos h, if_pos h]
    exact hz s
  · rw [if_neg h, if_neg h]
    exact hc s

theorem execRdstatus_actsLocally : ActsLocally execRdstatus :=
  ⟨fun _ b => (b, Response.value (statusReg b)), fun s => answers_respond s _⟩

theorem exec_actsLocally (i : Instr) : ActsLocally (exec i) := by
  cases i with
  | seed => exact execSeed_actsLocally
  | loadstate => exact execLoadstate_actsLocally
  | rdstatus => exact execRdstatus_actsLocally
  | _ => exact exec_actsLocally_of_isValue rfl

theorem execWord_actsLocally (w : CmdWord) : ActsLocally (execWord w) := by
  unfold execWord
  cases decode w with
  | ok i => exact exec_actsLocally i
  | error _ => exact (actsLocally_raise .illegal).unlessFaulted

/-! ### A host event acts on the block it names alone -/

/-- `t` is `s` after an event at block `k` that leaves it `b` and returns `rs`; the other blocks, the events to come and the
earlier responses are as in `s`. -/
structure Took (k : Nat) (s t : State) (b : Block) (rs : List Response) : Prop where
  block_self : t.block k = b
  block_of_ne : ∀ j, j ≠ k → t.block j = s.block j
  pending : t.pending = s.pending
  responses : t.responses = rs.map (k, ·) ++ s.responses

theorem resetBlock_took (s : State) (k : Nat) : Took k s (s.resetBlock k) Block.reset [] :=
  ⟨s.block_setBlock_self k _, fun _ h => s.block_setBlock_of_ne _ h, rfl, rfl⟩

/-- A command word takes effect as a function of its block, and returns one response (R46). -/
theorem execWord_issue_took (w : CmdWord) (k : Nat) (opa opb : Word) :
    ∃ f : Block → Block × Response, ∀ s, ∃ t, execWord w (s.issue k opa opb) = .next t ∧
      Took k s t (f (s.block k)).1 [(f (s.block k)).2] := by
  obtain ⟨f, hf⟩ := execWord_actsLocally w
  refine ⟨f ⟨k, opa, opb⟩, fun s => ?_⟩
  obtain ⟨t, ht, hcur, hother, hport, hpend, hresp⟩ := hf (s.issue k opa opb)
  rw [State.current_eq, hport] at hcur
  exact ⟨t, ht, hcur, hother, hpend, hresp⟩

theorem instanceExists_of_takeEvent {e : HostEvent} {s t : State} (h : takeEvent e s = .next t) :
    instanceExists e.target = true := by
  by_contra hne
  cases e <;> cases (if_neg hne).symm.trans h

/-- Every event that can take effect does so as a function of its block. -/
theorem takeEvent_took {e : HostEvent} (he : instanceExists e.target = true) :
    ∃ f : Block → Block × List Response, ∀ s, ∃ t, takeEvent e s = .next t ∧
      Took e.target s t (f (s.block e.target)).1 (f (s.block e.target)).2 := by
  cases e with
  | reset k => exact ⟨fun _ => (Block.reset, []), fun s => ⟨_, if_pos he, resetBlock_took s k⟩⟩
  | command k w opa opb =>
    obtain ⟨f, hf⟩ := execWord_issue_took w k opa opb
    refine ⟨fun b => ((f b).1, [(f b).2]), fun s => ?_⟩
    obtain ⟨t, ht, htook⟩ := hf s
    exact ⟨t, (if_pos he).trans ht, htook⟩

/-! ### One block over a run -/

/-- Instance `k` has the same record in both states, and the host has received the same responses from it. -/
structure SameBlock (k : Nat) (s t : State) : Prop where
  block : s.block k = t.block k
  responsesOf : s.responsesOf k = t.responsesOf k

theorem Took.responsesOf_self {k : Nat} {s t : State} {b : Block} {rs : List Response} (h : Took k s t b rs) :
    t.responsesOf k = rs ++ s.responsesOf k := by
  simp [State.responsesOf, h.responses, List.filter_map, Function.comp_def]

/-- An event at another block changes nothing of block `k`. -/
theorem Took.sameBlock_of_ne {j k : Nat} {s t : State} {b : Block} {rs : List Response} (h : Took j s t b rs)
    (hk : k ≠ j) : SameBlock k t s where
  block := h.block_of_ne k hk
  responsesOf := by simp [State.responsesOf, h.responses, List.filter_map, Function.comp_def, hk.symm]

/-- An event at block `k` does the same to it in any two states that agree on it. -/
theorem Took.sameBlock {k : Nat} {s s' t t' : State} {b : Block} {rs : List Response} (h : Took k s t b rs)
    (h' : Took k s' t' b rs) (hs : SameBlock k s s') : SameBlock k t t' where
  block := h.block_self.trans h'.block_self.symm
  responsesOf := by rw [h.responsesOf_self, h'.responsesOf_self, hs.responsesOf]

theorem step_of_pending {s : State} {e : HostEvent} {rest : List HostEvent} (h : s.pending = e :: rest) :
    step s = takeEvent e { s with pending := rest } := by
  rw [step, h]

theorem run_succ_of_step {s t : State} (h : step s = .next t) (n : Nat) : run (n + 1) s = run n t := by
  rw [run, h]

theorem step_of_run_succ {n : Nat} {s u : State} (h : run (n + 1) s = .next u) : ∃ t, step s = .next t := by
  rw [run] at h
  cases hs : step s with
  | next t => exact ⟨t, rfl⟩
  | fault f => simp [hs] at h
  | refused r => simp [hs] at h

/-- R49: two runs that start with the same block `k`, one on all events `es` and one on those that name `k` alone, end
with the same block `k`. An event at `k` is a step of both runs, any other a step of the first alone. -/
theorem run_sameBlock {k : Nat} {es : List HostEvent} {s s' u : State} (hp : s.pending = es)
    (hp' : s'.pending = es.filter (fun e => e.target == k)) (hs : SameBlock k s s') (hu : run es.length s = .next u) :
    ∃ u', run s'.pending.length s' = .next u' ∧ SameBlock k u u' := by
  induction es generalizing s s' with
  | nil =>
    cases hu
    exact ⟨s', by rw [hp']; rfl, hs⟩
  | cons e es ih =>
    obtain ⟨t, ht⟩ := step_of_run_succ hu
    have hrun := (run_succ_of_step ht es.length).symm.trans hu
    rw [step_of_pending hp] at ht
    obtain ⟨f, hf⟩ := takeEvent_took (instanceExists_of_takeEvent ht)
    obtain ⟨t₁, ht₁, htook⟩ := hf { s with pending := es }
    cases ht₁.symm.trans ht
    by_cases hk : e.target = k
    · subst hk
      rw [List.filter_cons_of_pos (by simp)] at hp'
      obtain ⟨t', ht', htook'⟩ := hf { s' with pending := es.filter (fun e' => e'.target == e.target) }
      rw [State.popped_block, ← hs.block] at htook'
      have hts := htook.sameBlock htook' ⟨hs.block, hs.responsesOf⟩
      obtain ⟨u', hu', hsame⟩ := ih htook.pending htook'.pending hts hrun
      rw [htook'.pending] at hu'
      refine ⟨u', ?_, hsame⟩
      rw [hp', List.length_cons, run_succ_of_step ((step_of_pending hp').trans ht')]
      exact hu'
    · rw [List.filter_cons_of_neg (by simpa using hk)] at hp'
      have hts := htook.sameBlock_of_ne (Ne.symm hk)
      exact ih htook.pending hp' ⟨hts.block.trans hs.block, hts.responsesOf.trans hs.responsesOf⟩ hrun

/-! ### FILL's bytes by index, and the host's stores of them -/

theorem wordsFrom_getElem? (adv : GenState → GenState) {i n : Nat} (h : i < n) (g : GenState) :
    (wordsFrom adv n g)[i]? = some (out (iterate adv i g)) := by
  induction n generalizing i g with
  | zero => omega
  | succ n ih =>
    cases i with
    | zero => rfl
    | succ i => exact ih (by omega) (adv g)

theorem leBytes_getElem? (w : Word) {j r : Nat} (h : j < r) : (leBytes w r)[j]? = some (leByte w j) := by
  simp [leBytes, h]

/-- Byte `i` of a stream of words is byte `i mod 8` of word `i / 8` (R41). -/
theorem flatMap_leBytes_getElem? (ws : List Word) (i : Nat) :
    (ws.flatMap (fun w => leBytes w 8))[i]? = ws[i / 8]?.map (fun w => leByte w (i % 8)) := by
  induction ws generalizing i with
  | nil => rfl
  | cons w ws ih =>
    rw [List.flatMap_cons]
    by_cases hi : i < 8
    · rw [List.getElem?_append_left (by simpa using hi), leBytes_getElem? w hi, Nat.div_eq_of_lt hi, Nat.mod_eq_of_lt hi]
      rfl
    · have hdiv : i / 8 = (i - 8) / 8 + 1 := by omega
      have hmod : i % 8 = (i - 8) % 8 := by omega
      rw [List.getElem?_append_right (by simpa using hi), leBytes_length, ih, hdiv, hmod, List.getElem?_cons_succ]

theorem fillBytes_getElem? (adv : GenState → GenState) (n : Word) (g : GenState) {i : Nat} (h : i < n.toNat) :
    (fillBytes adv n g).1[i]? = some (leByte (out (iterate adv (i / 8) g)) (i % 8)) := by
  rw [fillBytes_bytes, List.getElem?_take_of_lt h, flatMap_leBytes_getElem?, wordsFrom_getElem? adv (by omega)]
  rfl

theorem hostWrites_eq_mapIdx (dst : Nat) (bs : List Byte) : hostWrites dst bs = bs.mapIdx (fun i b => (dst + i, b)) := by
  induction bs generalizing dst with
  | nil => rfl
  | cons b bs ih => simp [hostWrites, ih, List.mapIdx_cons, Nat.add_assoc, Nat.add_comm 1]

end Sys2Proof.Machine

section
open Sys2Proof Sys2Proof.Machine

/-- Settles O58: by induction over the events of the whole run, with the run on block `k`'s own events beside it. -/
theorem instancesAreIsolated : Obligations.InstancesAreIsolated := by
  intro s t k ht
  obtain ⟨t', ht', hsame⟩ := run_sameBlock (s' := s.onlyEventsOf k) rfl rfl ⟨rfl, rfl⟩ ht
  exact ⟨t', ht', hsame.block.symm, hsame.responsesOf.symm⟩

/-- Settles O47: FILL's bytes are those of its words in draw order, read by index. -/
theorem fillReturnsTheBytes : Obligations.FillReturnsTheBytes := by
  intro s g hr n
  refine ⟨(fillBytes advance s.port.opa g).1, ?_, fillBytes_length _ _ _, fun i hi => fillBytes_getElem? _ _ _ hi⟩
  have h := answers_setCurrent_respond s (s.current.holding (valueState .fill s.port g)) (valueResponse .fill s.port g)
  rw [Executes, exec_value .fill s rfl, valueCommand_of_ready hr]
  exact h

/-- Settles O50: the stores are the bytes, each paired with `dst` plus its index. -/
theorem hostStoresTheBytes : Obligations.HostStoresTheBytes := by
  intro dst bs
  rw [hostWrites_eq_mapIdx]
  refine ⟨List.length_mapIdx, fun i b hb => ?_⟩
  rw [List.getElem?_mapIdx, hb]
  rfl

/-- Settles O57: what the event does is said once for a reset and once for a command word. -/
theorem eachStepTakesOneEvent : Obligations.EachStepTakesOneEvent := by
  intro s t e rest hp ht
  rw [step_of_pending hp] at ht
  have he := instanceExists_of_takeEvent ht
  cases e with
  | reset k =>
    cases (if_pos he).symm.trans ht
    exact ⟨rfl, fun _ _ => rfl, fun _ _ _ _ h => (nomatch h)⟩
  | command k w opa opb =>
    obtain ⟨f, hf⟩ := execWord_issue_took w k opa opb
    obtain ⟨t', ht', htook⟩ := hf { s with pending := rest }
    cases ht'.symm.trans ((if_pos he).symm.trans ht)
    refine ⟨htook.pending, fun _ h => (nomatch h), fun k' _ _ _ h => ?_⟩
    cases h
    exact ⟨_, htook.responses⟩

end

/-! ### Encoding (spec/30_encoding.md): the opcode map, the operand bits, what a response holds, and the assembler -/

namespace Sys2Proof.Machine

/-! ### Decode, encode and the legal words -/

theorem encoding_statement (i : Instr) : Laws.Encoding.Statement i := by
  cases i
  exacts [Laws.Encoding.seed, Laws.Encoding.loadstate, Laws.Encoding.rdstatus, Laws.Encoding.bool, Laws.Encoding.bernoulli,
    Laws.Encoding.u64, Laws.Encoding.i64, Laws.Encoding.u32, Laws.Encoding.i32, Laws.Encoding.boundedU32,
    Laws.Encoding.rangeU64, Laws.Encoding.rangeI64, Laws.Encoding.rangeU32, Laws.Encoding.rangeI32,
    Laws.Encoding.open01F64, Laws.Encoding.open01F32, Laws.Encoding.split, Laws.Encoding.fill]

@[simp] theorem decode_encode (i : Instr) : decode (encode i) = .ok i := (encoding_statement i).2.1

/-- The opcode map gives a command its own opcode only. -/
theorem eq_opcode_of_decodeOpcode {op : Nat} {i : Instr} (h : decodeOpcode op = some i) : op = (opcode i).toNat := by
  unfold decodeOpcode at h
  split at h <;> cases h <;> rfl

/-- A word decodes through its two fields (R61): a clear upper field, and an opcode of the map. -/
theorem decode_eq_ok_iff {w : CmdWord} {i : Instr} :
    decode w = .ok i ↔ w.extractLsb' 8 24 = 0#24 ∧ decodeOpcode (w.extractLsb' 0 8).toNat = some i := by
  unfold decode
  split
  · cases hop : decodeOpcode (w.extractLsb' 0 8).toNat <;> simp [*]
  · simp [*]

/-- A word with its upper field clear is its opcode zero-extended (R72). -/
theorem eq_setWidth_of_upper_clear {w : CmdWord} (h : w.extractLsb' 8 24 = 0#24) :
    w = (w.extractLsb' 0 8).setWidth 32 := by
  apply BitVec.eq_of_getLsbD_eq
  intro j hj
  by_cases hlow : j < 8
  · simp [hj, hlow]
  · have hbit := congrArg (fun u : BitVec 24 => u.getLsbD (j - 8)) h
    have hsum : 8 + (j - 8) = j := by omega
    simpa [hlow, hsum, show j - 8 < 24 by omega] using hbit

theorem decode_eq_ok_iff_eq_encode (w : CmdWord) (i : Instr) : decode w = .ok i ↔ w = encode i := by
  constructor
  · intro h
    obtain ⟨hupper, hop⟩ := decode_eq_ok_iff.1 h
    have hlow : w.extractLsb' 0 8 = opcode i := BitVec.eq_of_toNat_eq (eq_opcode_of_decodeOpcode hop)
    rw [eq_setWidth_of_upper_clear hupper, hlow, encode]
  · rintro rfl
    exact decode_encode i

/-- Every opcode in the ranges of R62 is a row of the opcode map. -/
theorem decodeOpcode_isSome_of_listed : ∀ op < 0x22,
    ((0x01 ≤ op && op ≤ 0x03) || (0x10 ≤ op && op ≤ 0x1C) || (0x20 ≤ op && op ≤ 0x21)) = true →
      (decodeOpcode op).isSome = true := by
  decide

/-- R62: the words that decode are the legal ones. -/
theorem exists_decode_iff_legal (w : CmdWord) : (∃ i, decode w = .ok i) ↔ legal w = true := by
  constructor
  · rintro ⟨i, h⟩
    rw [(decode_eq_ok_iff_eq_encode w i).1 h]
    exact (encoding_statement i).1
  · intro h
    obtain ⟨hupper, hlisted⟩ := Bool.and_eq_true_iff.1 h
    have hlt : (w.extractLsb' 0 8).toNat < 0x22 := by
      simp only [opcodeListed, Bool.or_eq_true, Bool.and_eq_true, decide_eq_true_eq] at hlisted
      omega
    obtain ⟨i, hi⟩ := Option.isSome_iff_exists.1 (decodeOpcode_isSome_of_listed _ hlt hlisted)
    exact ⟨i, decode_eq_ok_iff.2 ⟨eq_of_beq hupper, hi⟩⟩

theorem not_decode_of_not_legal {w : CmdWord} (h : legal w = false) (i : Instr) : decode w ≠ .ok i :=
  fun hd => absurd ((exists_decode_iff_legal w).1 ⟨i, hd⟩) (by simp [h])

/-! ### A word at a block (R164) -/

theorem execWord_of_decode {w : CmdWord} {i : Instr} (h : decode w = .ok i) (s : State) : execWord w s = exec i s := by
  rw [execWord, h]

theorem execWord_of_not_decode {w : CmdWord} (h : ∀ i, decode w ≠ .ok i) (s : State) : execWord w s = execIllegal s := by
  unfold execWord
  cases hd : decode w with
  | ok i => exact absurd hd (h i)
  | error _ => rfl

/-- R168: an illegal word at a faulted block is refused. -/
theorem execIllegal_of_faulted {s : State} (h : s.current.fault = true) :
    Answers (execIllegal s) s s.current Response.refused := by
  rw [execIllegal, unlessFaulted_of_faulted h]
  exact answers_respond s Response.refused

/-- R162: a fault taken at a block that has not faulted is recorded and answered. -/
theorem raise_faults {s : State} (h : s.current.fault = false) (c : FaultKind) : Faults (.next (s.raise c)) s c := by
  rw [Faults, ← Block.recording_of_ok c h]
  exact answers_setCurrent_respond s _ _

theorem execIllegal_of_ok {s : State} (h : s.current.fault = false) : Faults (execIllegal s) s .illegal := by
  rw [execIllegal, unlessFaulted_of_ok h]
  exact raise_faults h .illegal

theorem step_of_command {s : State} {k : Nat} {w : CmdWord} {opa opb : Word} {rest : List HostEvent}
    (hp : s.pending = .command k w opa opb :: rest) (hk : instanceExists k = true) :
    step s = execWord w ({ s with pending := rest }.issue k opa opb) :=
  (step_of_pending hp).trans (if_pos hk)

/-! ### The operand bits a command reads (R66, R69) -/

theorem eq_of_and_ones_eq {a b : Word} (h : a &&& 0xFFFFFFFFFFFFFFFF#64 = b &&& 0xFFFFFFFFFFFFFFFF#64) : a = b := by
  rwa [show (0xFFFFFFFFFFFFFFFF#64 : Word) = BitVec.allOnes 64 from rfl, BitVec.and_allOnes, BitVec.and_allOnes] at h

theorem low32_eq_of_and_eq {a b : Word} (h : a &&& 0x00000000FFFFFFFF#64 = b &&& 0x00000000FFFFFFFF#64) :
    a.extractLsb' 0 32 = b.extractLsb' 0 32 := by
  have hones : (0x00000000FFFFFFFF#64 : Word).extractLsb' 0 32 = BitVec.allOnes 32 := by decide
  simpa only [BitVec.extractLsb'_and, hones, BitVec.and_allOnes] using congrArg (BitVec.extractLsb' 0 32) h

/-- Two ports that agree in every operand bit the command reads. -/
structure SameOperands (i : Instr) (p q : Port) : Prop where
  opa : p.opa &&& opaBits i = q.opa &&& opaBits i
  opb : p.opb &&& opbBits i = q.opb &&& opbBits i

theorem SameOperands.valueResponse {i : Instr} {p q : Port} (h : SameOperands i p q) (g : GenState) :
    valueResponse i p g = valueResponse i q g := by
  obtain ⟨ha, hb⟩ := h
  cases i with
  | bernoulli =>
    have : p.prob = q.prob := congrArg f64FromBits (eq_of_and_ones_eq ha)
    simp only [Machine.valueResponse, this]
  | boundedU32 =>
    have : p.opa32 = q.opa32 := low32_eq_of_and_eq ha
    simp only [Machine.valueResponse, this]
  | rangeU64 | rangeI64 => simp only [Machine.valueResponse, eq_of_and_ones_eq ha, eq_of_and_ones_eq hb]
  | rangeU32 | rangeI32 =>
    have h32a : p.opa32 = q.opa32 := low32_eq_of_and_eq ha
    have h32b : p.opb32 = q.opb32 := low32_eq_of_and_eq hb
    simp only [Machine.valueResponse, h32a, h32b]
  | fill => simp only [Machine.valueResponse, eq_of_and_ones_eq ha]
  | _ => rfl

/-- FILL alone draws by its operand, and it reads all of it. -/
theorem SameOperands.valueState {i : Instr} {p q : Port} (h : SameOperands i p q) (g : GenState) :
    valueState i p g = valueState i q g := by
  cases i with
  | fill => rw [Machine.valueState, Machine.valueState, eq_of_and_ones_eq h.opa]
  | _ => rfl

theorem SameOperands.seed {p q : Port} (h : SameOperands .seed p q) : p.seed = q.seed := by
  rw [Port.seed, Port.seed, eq_of_and_ones_eq h.opa, eq_of_and_ones_eq h.opb]

theorem SameOperands.genState {p q : Port} (h : SameOperands .loadstate p q) : p.genState = q.genState := by
  rw [Port.genState, Port.genState, eq_of_and_ones_eq h.opa, eq_of_and_ones_eq h.opb]

/-- R168 for a command: only RDSTATUS runs at a faulted block. -/
theorem exec_of_faulted {i : Instr} {s : State} (hi : i ≠ .rdstatus) (hf : s.current.fault = true) :
    exec i s = .next s.refuse := by
  cases exec_cases i s with
  | status h => exact absurd h hi
  | refused _ _ h => exact h
  | unseeded _ h | zeroState _ h | construct h => exact absurd (hf.symm.trans h) (by decide)
  | value _ _ h => exact absurd (hf.symm.trans h.1) (by decide)

theorem execSeed_of_ok {s : State} (h : s.current.fault = false) :
    exec .seed s = .next (s.construct (seedState seedMult seedFallback s.port.seed)) :=
  unlessFaulted_of_ok h _

theorem execLoadstate_of_zero {s : State} (h : s.current.fault = false) (hz : s.port.genState = ⟨0#64, 0#64⟩) :
    exec .loadstate s = .next (s.raise .zeroState) :=
  (unlessFaulted_of_ok h _).trans (if_pos hz)

theorem execLoadstate_of_ne_zero {s : State} (h : s.current.fault = false) (hz : s.port.genState ≠ ⟨0#64, 0#64⟩) :
    exec .loadstate s = .next (s.construct s.port.genState) :=
  (unlessFaulted_of_ok h _).trans (if_neg hz)

/-- The platform with other values on the operand buses of the command at hand. -/
def State.withOperands (s : State) (a b : Word) : State := { s with port := { s.port with opa := a, opb := b } }

@[simp] theorem State.withOperands_current (s : State) (a b : Word) : (s.withOperands a b).current = s.current := rfl

/-- R69: with operand buses that agree in the bits it reads, a command does the same. -/
theorem exec_withOperands {i : Instr} {s t : State} {a b : Word} (hp : SameOperands i (s.withOperands a b).port s.port)
    (ht : exec i s = .next t) : exec i (s.withOperands a b) = .next (t.withOperands a b) := by
  cases exec_cases i s with
  | status hi h =>
    subst hi
    cases h.symm.trans ht
    rfl
  | refused hi hf h =>
    cases h.symm.trans ht
    exact exec_of_faulted (s := s.withOperands a b) hi hf
  | unseeded hi hf hx h =>
    cases h.symm.trans ht
    exact (exec_value i _ hi).trans (valueCommand_of_unseeded (s := s.withOperands a b) hf hx _)
  | zeroState hi hf hz h =>
    subst hi
    cases h.symm.trans ht
    exact execLoadstate_of_zero (s := s.withOperands a b) hf (hp.genState.trans hz)
  | construct hf g hg hi h =>
    cases h.symm.trans ht
    obtain ⟨rfl, rfl⟩ | ⟨rfl, rfl⟩ := hi
    · rw [execSeed_of_ok (s := s.withOperands a b) hf, hp.seed]
      rfl
    · rw [execLoadstate_of_ne_zero (s := s.withOperands a b) hf (hp.genState.trans_ne hg), hp.genState]
      rfl
  | value hi g hr h =>
    cases h.symm.trans ht
    rw [exec_value i _ hi, valueCommand_of_ready (s := s.withOperands a b) (g := g) hr, hp.valueResponse, hp.valueState]
    rfl

theorem exec_answers (i : Instr) (s : State) : ∃ t, exec i s = .next t := by
  obtain ⟨f, hf⟩ := exec_actsLocally i
  obtain ⟨t, ht, -⟩ := hf s
  exact ⟨t, ht⟩

/-! ### What a response holds (R67, R68) -/

/-- What stands on each bus of a response of the command `i`. -/
def Placed (i : Instr) (r : Response) : Prop :=
  r.status.code ≤ 4 ∧ (r.status.code ≠ 0 → r.res0 = 0#64 ∧ r.res1 = 0#64 ∧ r.bytes = []) ∧
    (i ≠ .split → r.res1 = 0#64) ∧ (i ≠ .fill → r.bytes = []) ∧
    (i = .u32 ∨ i = .i32 ∨ i = .boundedU32 ∨ i = .rangeU32 ∨ i = .rangeI32 ∨ i = .open01F32 → r.res0.toNat < 2 ^ 32) ∧
    (i = .bool ∨ i = .bernoulli → r.res0 = 0#64 ∨ r.res0 = 1#64)

theorem FaultKind.code_le (c : FaultKind) : c.code.toNat ≤ 4 := by cases c <;> decide

/-- A response that returns nothing is placed, whatever its status: a fault, a refusal, or SEED's. -/
theorem placed_of_nothing (i : Instr) (st : Status) : Placed i ⟨st, 0#64, 0#64, []⟩ := by
  refine ⟨?_, fun _ => ⟨rfl, rfl, rfl⟩, fun _ => rfl, fun _ => rfl, fun _ => Nat.two_pow_pos 32, fun _ => .inl rfl⟩
  cases st with
  | ok => exact Nat.zero_le 4
  | fault c => exact c.code_le
  | faulted => exact le_rfl

/-- A value on `RES0` alone is placed where it is as narrow as the command's result. -/
theorem placed_value {i : Instr} {v : Word}
    (h32 : i = .u32 ∨ i = .i32 ∨ i = .boundedU32 ∨ i = .rangeU32 ∨ i = .rangeI32 ∨ i = .open01F32 → v.toNat < 2 ^ 32)
    (hbool : i = .bool ∨ i = .bernoulli → v = 0#64 ∨ v = 1#64) : Placed i (Response.value v) :=
  ⟨Nat.zero_le 4, fun h => absurd rfl h, fun _ => rfl, fun _ => rfl, h32, hbool⟩

theorem place32_lt (v : Half) : (place32 v).toNat < 2 ^ 32 := by
  rw [place32_toNat]
  exact v.isLt

theorem placeBool_eq (v : Bool) : placeBool v = 0#64 ∨ placeBool v = 1#64 := by
  cases v
  exacts [.inl rfl, .inr rfl]

theorem placed_valueResponse (i : Instr) (p : Port) (g : GenState) : Placed i (valueResponse i p g) := by
  cases i with
  | bool | bernoulli => exact placed_value (by simp) fun _ => placeBool_eq _
  | u32 | i32 | boundedU32 | rangeU32 | rangeI32 | open01F32 => exact placed_value (fun _ => place32_lt _) (by simp)
  | split => exact ⟨Nat.zero_le 4, fun h => absurd rfl h, fun h => absurd rfl h, fun _ => rfl, by simp, by simp⟩
  | fill => exact ⟨Nat.zero_le 4, fun h => absurd rfl h, fun _ => rfl, fun h => absurd rfl h, by simp, by simp⟩
  | _ => exact placed_value (by simp) (by simp)

/-- Each way a command can answer places its response. -/
theorem exec_placed {i : Instr} {s t : State} (ht : exec i s = .next t) :
    ∃ r, t.responses = (s.port.target, r) :: s.responses ∧ Placed i r := by
  cases exec_cases i s with
  | status hi h =>
    subst hi
    cases h.symm.trans ht
    exact ⟨_, rfl, placed_value (by simp) (by simp)⟩
  | refused _ _ h | unseeded _ _ _ h | zeroState _ _ _ h | construct _ _ _ _ h =>
    cases h.symm.trans ht
    exact ⟨_, rfl, placed_of_nothing i _⟩
  | value _ g _ h =>
    cases h.symm.trans ht
    exact ⟨_, rfl, placed_valueResponse i s.port g⟩

/-! ### The assembler: names, and the shape of a line -/

@[simp] theorem instrOfName_mnemonic (i : Instr) : instrOfName (mnemonic i) = some i := by cases i <;> decide

theorem instrOfName_eq_some_iff (name : List Char) (i : Instr) :
    instrOfName name = some i ↔ name = mnemonic i ∨ (name = "NEXT".toList ∧ i = .u64) := by
  constructor
  · intro h
    unfold instrOfName at h
    split at h
    case isTrue hname => exact .inr ⟨hname, (Option.some.inj h).symm⟩
    case isFalse =>
      have hfound : mnemonic i = name := by simpa using List.find?_some h
      exact .inl hfound.symm
  · rintro (rfl | ⟨rfl, rfl⟩)
    · exact instrOfName_mnemonic i
    · rfl

/-- A line the assembler takes is a name it knows and operands its command is written with (R70, R72). -/
theorem assembleLine_eq_some_iff {line : List Char} {c : AsmCommand} :
    assembleLine line = some c ↔ ∃ i, instrOfName ((trimBlanks line).span (· ≠ ' ')).1 = some i ∧
      operandValues (operandForm i) (operandTexts ((trimBlanks line).span (· ≠ ' ')).2) = some (c.opa, c.opb) ∧
      c.cmd = encode i := by
  constructor
  · intro h
    unfold assembleLine at h
    dsimp only at h
    split at h
    case h_1 => cases h
    case h_2 i hi =>
      split at h
      case h_1 => cases h
      case h_2 a b hv =>
        cases h
        exact ⟨i, hi, hv, rfl⟩
  · rintro ⟨i, hi, hv, hcmd⟩
    unfold assembleLine
    dsimp only
    rw [hi]
    dsimp only
    rw [hv, ← hcmd]

/-! ### The width of an operand value (R66) -/

/-- How many low bits of `OPA` an operand form fills. -/
def OperandForm.opaWidth : OperandForm → Nat
  | .nothing => 0
  | .seed => 64
  | .prob => 64
  | .one _ w => w
  | .two _ w => w

/-- How many low bits of `OPB` an operand form fills. -/
def OperandForm.opbWidth : OperandForm → Nat
  | .nothing => 0
  | .seed => 64
  | .prob => 0
  | .one _ _ => 0
  | .two _ w => w

theorem and_lowBits_eq_self_iff (a : Word) {w : Nat} (hw : w ≤ 64) :
    a &&& BitVec.ofNat 64 (2 ^ w - 1) = a ↔ a.toNat < 2 ^ w := by
  have hlt : 2 ^ w - 1 < 2 ^ 64 := by
    have := Nat.pow_le_pow_right (n := 2) (by decide) hw
    omega
  rw [← BitVec.toNat_inj, BitVec.toNat_and, BitVec.toNat_ofNat, Nat.mod_eq_of_lt hlt, Nat.and_two_pow_sub_one_eq_mod]
  exact ⟨fun h => h ▸ Nat.mod_lt _ (Nat.two_pow_pos w), Nat.mod_eq_of_lt⟩

/-- The bits of `OPA` a command reads are the ones its operands are written for. -/
theorem and_opaBits_eq_self_iff (i : Instr) (a : Word) :
    a &&& opaBits i = a ↔ a.toNat < 2 ^ (operandForm i).opaWidth := by
  have hbits : opaBits i = BitVec.ofNat 64 (2 ^ (operandForm i).opaWidth - 1) := by cases i <;> rfl
  rw [hbits, and_lowBits_eq_self_iff a (by cases i <;> decide)]

theorem and_opbBits_eq_self_iff (i : Instr) (b : Word) :
    b &&& opbBits i = b ↔ b.toNat < 2 ^ (operandForm i).opbWidth := by
  have hbits : opbBits i = BitVec.ofNat 64 (2 ^ (operandForm i).opbWidth - 1) := by cases i <;> rfl
  rw [hbits, and_lowBits_eq_self_iff b (by cases i <;> decide)]

theorem ofNat64_lt {v w : Nat} (h : v < 2 ^ w) : (BitVec.ofNat 64 v).toNat < 2 ^ w :=
  lt_of_le_of_lt (Nat.mod_le v _) h

/-- The operand values of a form fit its widths (R72: a bus that is not read is 0). -/
theorem operandValues_lt {form : OperandForm} {texts : List (List Char)} {a b : Word}
    (h : operandValues form texts = some (a, b)) : a.toNat < 2 ^ form.opaWidth ∧ b.toNat < 2 ^ form.opbWidth := by
  unfold operandValues at h
  split at h
  case h_1 =>
    cases h
    exact ⟨by decide, by decide⟩
  case h_2 =>
    obtain ⟨v, -, hv⟩ := Option.map_eq_some_iff.1 h
    cases hv
    exact ⟨BitVec.isLt _, BitVec.isLt _⟩
  case h_3 =>
    obtain ⟨v, -, hv⟩ := Option.map_eq_some_iff.1 h
    cases hv
    exact ⟨BitVec.isLt _, by decide⟩
  case h_4 =>
    obtain ⟨v, hint, hv⟩ := Option.map_eq_some_iff.1 h
    cases hv
    exact ⟨ofNat64_lt (intOperand_lt hint), Nat.one_pos⟩
  case h_5 =>
    split at h
    case h_1 u v hu hv =>
      cases h
      exact ⟨ofNat64_lt (intOperand_lt hu), ofNat64_lt (intOperand_lt hv)⟩
    case h_2 => cases h
  case h_6 => cases h

/-! ### Writing a line: a name, and operands after a blank each -/

/-- A text the assembler keeps whole between two commas. -/
def IsOperandText (t : List Char) : Prop := t ≠ [] ∧ ∀ c ∈ t, isInner c = true

/-- Operands as they are written after a name: a blank before each, a comma between two. -/
def joinOperands : List (List Char) → List Char
  | [] => []
  | [t] => ' ' :: t
  | t :: u :: ts => ' ' :: t ++ ',' :: joinOperands (u :: ts)

theorem exists_joinOperands_cons (t : List Char) (ts : List (List Char)) :
    ∃ more, joinOperands (t :: ts) = ' ' :: (t ++ more) := by
  cases ts with
  | nil => exact ⟨[], by rw [joinOperands, List.append_nil]⟩
  | cons u ts => exact ⟨_, rfl⟩

theorem eq_blank_of_trimBlanks_eq_nil {l : List Char} (h : trimBlanks l = []) : ∀ c ∈ l, c = ' ' := by
  have hdrop : ∀ m : List Char, m.dropWhile (· = ' ') = [] → ∀ c ∈ m, c = ' ' := by
    intro m hm c hc
    exact of_decide_eq_true (List.dropWhile_eq_nil_iff.1 hm c hc)
  have hrest := hdrop _ (List.reverse_eq_nil_iff.1 h)
  refine hdrop l (List.eq_nil_iff_forall_not_mem.2 fun c hc => ?_)
  have hne := List.ne_nil_of_mem hc
  exact absurd (hrest _ (List.mem_reverse.2 (List.head_mem hne))) (by simpa using List.head_dropWhile_not _ hne)

theorem IsOperandText.ne_blank {t : List Char} (h : IsOperandText t) : ∀ c ∈ t, c ≠ ' ' :=
  fun c hc => ne_blank_of_isInner (h.2 c hc)

theorem IsOperandText.ne_comma_blank_cons {t : List Char} (h : IsOperandText t) : ∀ c ∈ ' ' :: t, c ≠ ',' := by
  intro c hc
  obtain rfl | hc := List.mem_cons.1 hc
  · decide
  · exact ne_comma_of_isInner (h.2 c hc)

/-- Each operand comes back with the blank written before it. -/
theorem splitCommas_joinOperands (t : List Char) (ts : List (List Char)) (h : ∀ u ∈ t :: ts, IsOperandText u) :
    splitCommas (joinOperands (t :: ts)) = (t :: ts).map (' ' :: ·) := by
  have hcomma := (h t List.mem_cons_self).ne_comma_blank_cons
  induction ts generalizing t with
  | nil => exact splitCommas_of_no_comma hcomma
  | cons u ts ih =>
    have hrest : ∀ v ∈ u :: ts, IsOperandText v := fun v hv => h v (List.mem_cons_of_mem _ hv)
    rw [joinOperands, splitCommas_append hcomma, ih u hrest (hrest u List.mem_cons_self).ne_comma_blank_cons]
    rfl

theorem trimBlanks_joinOperands_ne_nil {t : List Char} (ts : List (List Char)) (h : IsOperandText t) :
    trimBlanks (joinOperands (t :: ts)) ≠ [] := by
  intro hnil
  obtain ⟨more, hmore⟩ := exists_joinOperands_cons t ts
  obtain ⟨c, hc⟩ := List.exists_mem_of_ne_nil t h.1
  refine h.ne_blank c hc (eq_blank_of_trimBlanks_eq_nil hnil c ?_)
  rw [hmore]
  exact List.mem_cons_of_mem _ (List.mem_append_left _ hc)

theorem operandTexts_joinOperands {ts : List (List Char)} (h : ∀ t ∈ ts, IsOperandText t) :
    operandTexts (joinOperands ts) = ts := by
  cases ts with
  | nil => rfl
  | cons t ts =>
    rw [operandTexts, if_neg (trimBlanks_joinOperands_ne_nil ts (h t List.mem_cons_self)), splitCommas_joinOperands t ts h,
      List.map_map]
    exact (List.map_congr_left fun u hu => trimBlanks_blank_cons (h u hu).ne_blank).trans (List.map_id _)

/-- A written operand list does not end in a blank. -/
theorem getLast?_joinOperands_ne_blank {ts : List (List Char)} (h : ∀ t ∈ ts, IsOperandText t) {c : Char}
    (hc : (joinOperands ts).getLast? = some c) : c ≠ ' ' := by
  induction ts with
  | nil => cases hc
  | cons t ts ih =>
    have ht := h t List.mem_cons_self
    cases ts with
    | nil =>
      obtain ⟨d, t', rfl⟩ := List.exists_cons_of_ne_nil ht.1
      exact ht.ne_blank c (List.mem_of_getLast? hc)
    | cons u ts =>
      obtain ⟨more, hmore⟩ := exists_joinOperands_cons u ts
      refine ih (fun v hv => h v (List.mem_cons_of_mem _ hv)) ?_
      rw [joinOperands, hmore, List.getLast?_append] at hc
      rw [hmore]
      simpa using hc

/-- A name that is not empty, followed by its operands, is read back as both (R70). -/
theorem trimBlanks_span_joinOperands {name : List Char} {ts : List (List Char)} (hname : IsOperandText name)
    (h : ∀ t ∈ ts, IsOperandText t) :
    (trimBlanks (name ++ joinOperands ts)).span (· ≠ ' ') = (name, joinOperands ts) := by
  have htrim : trimBlanks (name ++ joinOperands ts) = name ++ joinOperands ts := by
    refine trimBlanks_of_ends (fun c hc => ?_) (fun c hc => ?_)
    · rw [List.head?_append_of_ne_nil _ hname.1] at hc
      exact hname.ne_blank c (List.mem_of_mem_head? hc)
    · rw [List.getLast?_append] at hc
      cases hlast : (joinOperands ts).getLast? with
      | none =>
        rw [hlast] at hc
        exact hname.ne_blank c (List.mem_of_getLast? hc)
      | some d =>
        rw [hlast] at hc
        cases hc
        exact getLast?_joinOperands_ne_blank h hlast
  rw [htrim]
  cases ts with
  | nil =>
    have hall : ∀ c ∈ name, decide (c ≠ ' ') = true := fun c hc => decide_eq_true (hname.ne_blank c hc)
    rw [joinOperands, List.append_nil, List.span_eq_takeWhile_dropWhile, List.takeWhile_eq_self_iff.2 hall,
      List.dropWhile_eq_nil_iff.2 hall]
  | cons t ts =>
    obtain ⟨more, hmore⟩ := exists_joinOperands_cons t ts
    rw [hmore]
    exact span_blank hname.ne_blank

theorem mnemonic_isOperandText (i : Instr) : IsOperandText (mnemonic i) :=
  ⟨by cases i <;> decide, mnemonic_isInner i⟩

/-! ### Operand values in hex digits -/

/-- A value as `0x` and `k` hex digits (R70). -/
def hexLiteral (k v : Nat) : List Char := '0' :: 'x' :: hexDigits k v

theorem hexLiteral_isOperandText (k v : Nat) : IsOperandText (hexLiteral k v) := by
  refine ⟨List.cons_ne_nil _ _, fun c hc => ?_⟩
  obtain rfl | hc := List.mem_cons.1 hc
  · decide
  obtain rfl | hc := List.mem_cons.1 hc
  · decide
  · exact hexDigits_isInner k v c hc

/-- The operands of a form, each in all the hex digits of its width, for the bus values `a` and `b`. -/
def operandLiterals (form : OperandForm) (a b : Word) : List (List Char) :=
  match form with
  | .nothing => []
  | .seed => [hexLiteral 32 (b.toNat * 2 ^ 64 + a.toNat)]
  | .prob => [hexLiteral 16 a.toNat]
  | .one _ w => [hexLiteral (w / 4) a.toNat]
  | .two _ w => [hexLiteral (w / 4) a.toNat, hexLiteral (w / 4) b.toNat]

theorem operandLiterals_isOperandText (form : OperandForm) (a b : Word) :
    ∀ t ∈ operandLiterals form a b, IsOperandText t := by
  cases form <;> simp [operandLiterals, hexLiteral_isOperandText]

theorem eq_zero_of_toNat_lt_one {a : Word} (h : a.toNat < 2 ^ 0) : a = 0#64 :=
  BitVec.eq_of_toNat_eq (Nat.lt_one_iff.1 h)

theorem operandValues_seed_literal (a b : Word) : operandValues .seed (operandLiterals .seed a b) = some (a, b) := by
  have hlt : b.toNat * 2 ^ 64 + a.toNat < 2 ^ 128 := by
    have := a.isLt
    have := b.isLt
    omega
  have hlow : BitVec.ofNat 64 (b.toNat * 2 ^ 64 + a.toNat) = a := by
    apply BitVec.eq_of_toNat_eq
    rw [BitVec.toNat_ofNat]
    omega
  have hhigh : (b.toNat * 2 ^ 64 + a.toNat) / 2 ^ 64 = b.toNat := by omega
  simp only [operandLiterals, operandValues, hexLiteral, intOperand_hexDigits false (k := 31) rfl hlt]
  rw [Option.map_some, hlow, hhigh, BitVec.ofNat_toNat, BitVec.setWidth_eq]

theorem operandValues_prob_literal (a : Word) : operandValues .prob (operandLiterals .prob a 0#64) = some (a, 0#64) := by
  simp only [operandLiterals, operandValues, hexLiteral, probOperand_hexDigits a.isLt]
  rw [Option.map_some, BitVec.ofNat_toNat, BitVec.setWidth_eq]

theorem operandValues_one_literal (signed : Bool) {k : Nat} {a : Word} (ha : a.toNat < 2 ^ (4 * (k + 1))) :
    operandValues (.one signed (4 * (k + 1))) (operandLiterals (.one signed (4 * (k + 1))) a 0#64) = some (a, 0#64) := by
  have hdiv : 4 * (k + 1) / 4 = k + 1 := by omega
  simp only [operandLiterals, operandValues, hexLiteral, hdiv, intOperand_hexDigits signed rfl ha]
  rw [Option.map_some, BitVec.ofNat_toNat, BitVec.setWidth_eq]

theorem operandValues_two_literals (signed : Bool) {k : Nat} {a b : Word} (ha : a.toNat < 2 ^ (4 * (k + 1)))
    (hb : b.toNat < 2 ^ (4 * (k + 1))) :
    operandValues (.two signed (4 * (k + 1))) (operandLiterals (.two signed (4 * (k + 1))) a b) = some (a, b) := by
  have hdiv : 4 * (k + 1) / 4 = k + 1 := by omega
  simp only [operandLiterals, operandValues, hexLiteral, hdiv, intOperand_hexDigits signed rfl ha,
    intOperand_hexDigits signed rfl hb]
  rw [BitVec.ofNat_toNat, BitVec.setWidth_eq, BitVec.ofNat_toNat, BitVec.setWidth_eq]

/-- Operand values that fit a command's form are read back from their literals. -/
theorem operandValues_operandLiterals {i : Instr} {a b : Word} (ha : a.toNat < 2 ^ (operandForm i).opaWidth)
    (hb : b.toNat < 2 ^ (operandForm i).opbWidth) :
    operandValues (operandForm i) (operandLiterals (operandForm i) a b) = some (a, b) := by
  cases i with
  | seed => exact operandValues_seed_literal a b
  | bernoulli =>
    obtain rfl := eq_zero_of_toNat_lt_one hb
    exact operandValues_prob_literal a
  | boundedU32 =>
    obtain rfl := eq_zero_of_toNat_lt_one hb
    exact operandValues_one_literal false (k := 7) ha
  | fill =>
    obtain rfl := eq_zero_of_toNat_lt_one hb
    exact operandValues_one_literal false (k := 15) ha
  | loadstate | rangeU64 => exact operandValues_two_literals false (k := 15) ha hb
  | rangeI64 => exact operandValues_two_literals true (k := 15) ha hb
  | rangeU32 => exact operandValues_two_literals false (k := 7) ha hb
  | rangeI32 => exact operandValues_two_literals true (k := 7) ha hb
  | _ =>
    obtain rfl := eq_zero_of_toNat_lt_one ha
    obtain rfl := eq_zero_of_toNat_lt_one hb
    rfl

/-- A command's mnemonic and operands its form takes, written out, assemble to it (R70, R72). -/
theorem assembleLine_joinOperands {i : Instr} {ts : List (List Char)} {a b : Word} (h : ∀ t ∈ ts, IsOperandText t)
    (hv : operandValues (operandForm i) ts = some (a, b)) :
    assembleLine (mnemonic i ++ joinOperands ts) = some ⟨encode i, a, b⟩ := by
  rw [assembleLine_eq_some_iff, trimBlanks_span_joinOperands (mnemonic_isOperandText i) h, operandTexts_joinOperands h]
  exact ⟨i, instrOfName_mnemonic i, hv, rfl⟩

/-- A line for a command: its mnemonic and the literals of its operands. -/
def writeLine (i : Instr) (a b : Word) : List Char := mnemonic i ++ joinOperands (operandLiterals (operandForm i) a b)

theorem writeLine_name (i : Instr) (a b : Word) : ((trimBlanks (writeLine i a b)).span (· ≠ ' ')).1 = mnemonic i :=
  congrArg Prod.fst
    (trimBlanks_span_joinOperands (mnemonic_isOperandText i) (operandLiterals_isOperandText (operandForm i) a b))

theorem assembleLine_writeLine {i : Instr} {a b : Word} (ha : a &&& opaBits i = a) (hb : b &&& opbBits i = b) :
    assembleLine (writeLine i a b) = some ⟨encode i, a, b⟩ :=
  assembleLine_joinOperands (operandLiterals_isOperandText _ a b)
    (operandValues_operandLiterals ((and_opaBits_eq_self_iff i a).1 ha) ((and_opbBits_eq_self_iff i b).1 hb))

/-- R70's decimal literal: 5/10 is the binary64 pattern of one half. -/
theorem probOperand_half : probOperand "0.5".toList = some 0x3FE0000000000000 := by
  have hparse : probOperand "0.5".toList = some (nearestF64 5 10) := by decide
  have hnearest : nearestF64 5 10 = 0x3FE0000000000000 := by decide
  rw [hparse, hnearest]

theorem assembleLine_bernoulli_half :
    assembleLine "BERNOULLI 0.5".toList = some ⟨0x00000011#32, 0x3FE0000000000000#64, 0#64⟩ :=
  assembleLine_joinOperands (i := .bernoulli) (ts := ["0.5".toList]) (by simp [IsOperandText, isInner])
    (congrArg (Option.map fun v => (BitVec.ofNat 64 v, 0#64)) probOperand_half)

end Sys2Proof.Machine

section
open Sys2Proof Sys2Proof.Machine

/-- Settles O15: the upper field and the opcode of a word are those of the command it decodes to. -/
theorem decodeAndEncodeAgree : Obligations.DecodeAndEncodeAgree := decode_eq_ok_iff_eq_encode

/-- Settles O14: the words that decode are the legal ones, and any other runs the checks of an illegal word. -/
theorem legalWordsAreTheCommands : Obligations.LegalWordsAreTheCommands := by
  refine ⟨exists_decode_iff_legal, fun w s hw hf => ?_⟩
  rw [execWord_of_not_decode (not_decode_of_not_legal hw)]
  exact execIllegal_of_ok hf

/-- Settles O16: both ports agree in the operand bits read, so the command leaves the same state but for the port. -/
theorem ignoredOperandBitsChangeNothing : Obligations.IgnoredOperandBitsChangeNothing := by
  intro i s a b ha hb
  obtain ⟨t, ht⟩ := exec_answers i s
  exact ⟨t, _, ht, exec_withOperands ⟨ha, hb⟩ ht, rfl, rfl⟩

/-- Settles O17: the response of each way a command can answer is placed as R67 and R68 say. -/
theorem responsePlacement : Obligations.ResponsePlacement := by
  intro i s t r ht hr
  obtain ⟨r', hr', hplaced⟩ := exec_placed ht
  cases hr.symm.trans hr'
  exact hplaced

/-- Settles O13: each word of the map is an encoding, and no word of the second list is legal. -/
theorem opcodeMapWordsDecode : Obligations.OpcodeMapWordsDecode := by
  refine ⟨decode_encode .seed, decode_encode .loadstate, decode_encode .rdstatus, decode_encode .bool,
    decode_encode .bernoulli, decode_encode .u64, decode_encode .i64, decode_encode .u32, decode_encode .i32,
    decode_encode .boundedU32, decode_encode .rangeU64, decode_encode .rangeI64, decode_encode .rangeU32,
    decode_encode .rangeI32, decode_encode .open01F64, decode_encode .open01F32, decode_encode .split,
    decode_encode .fill, fun w hw => not_decode_of_not_legal ?_⟩
  fin_cases hw <;> rfl

/-- Settles O55: the event is popped and issued, and the word decodes or runs the checks of an illegal word. -/
theorem stepRunsTheDecodedCommand : Obligations.StepRunsTheDecodedCommand := by
  intro s k w a b rest hp hk u
  have hstep : step s = execWord w u := step_of_command hp hk
  refine ⟨hstep, fun i hd => hstep.trans (execWord_of_decode hd u), fun hd hf => ?_, fun hd hf => ?_⟩
  all_goals rw [hstep, execWord_of_not_decode hd]
  · exact execIllegal_of_faulted hf
  · exact execIllegal_of_ok hf

/-- Settles O18: a line that is taken has the word of its name, and operand values within the widths of its form. -/
theorem assembledLinesAreCommands : Obligations.AssembledLinesAreCommands := by
  refine ⟨instrOfName_eq_some_iff, fun line c h => ?_⟩
  obtain ⟨i, hname, hvalues, hcmd⟩ := assembleLine_eq_some_iff.1 h
  obtain ⟨ha, hb⟩ := operandValues_lt hvalues
  exact ⟨i, hname, hcmd ▸ decode_encode i, hcmd, (and_opaBits_eq_self_iff i c.opa).2 ha,
    (and_opbBits_eq_self_iff i c.opb).2 hb⟩

/-- Settles O60: the line in hex literals assembles to the command, and the spec's examples are evaluated. -/
theorem everyCommandCanBeWritten : Obligations.EveryCommandCanBeWritten := by
  refine ⟨fun i a b ha hb => ⟨writeLine i a b, writeLine_name i a b, assembleLine_writeLine ha hb⟩,
    ?_, ?_, ?_, ?_, ?_, assembleLine_bernoulli_half, ?_, ?_, ?_, ?_, ?_⟩
  all_goals decide

end

/-! ### The mixing core (spec/40_mixing_core.md): construction, the avalanche, the step, and determinism -/

namespace Sys2Proof.Machine

/-! ### Construction and inspection -/

/-- R81, R91: a construction completes with nothing on the buses and keeps the status fields. -/
theorem executes_of_construct {i : Instr} {s : State} {g : GenState} (h : exec i s = .next (s.construct g)) :
    Executes i s g 0#64 0#64 [] := by
  rw [Executes, h]
  exact answers_setCurrent_respond s _ _

theorem genState_ne_zero {a b : Word} (h : ¬(a = 0#64 ∧ b = 0#64)) : (⟨a, b⟩ : GenState) ≠ ⟨0#64, 0#64⟩ :=
  fun he => h (GenState.mk.inj he)

/-- The state a successful SEED or LOADSTATE constructs is a function of the operand buses alone. -/
theorem exists_construct {i : Instr} {a b : Word} (hi : i = .seed ∨ (i = .loadstate ∧ ¬(a = 0#64 ∧ b = 0#64))) :
    ∃ g, ∀ s : State, s.port.opa = a → s.port.opb = b → s.current.fault = false →
      exec i s = .next (s.construct g) := by
  obtain rfl | ⟨rfl, hne⟩ := hi
  · refine ⟨seedState seedMult seedFallback (b ++ a), ?_⟩
    rintro s rfl rfl hf
    exact execSeed_of_ok hf
  · refine ⟨⟨a, b⟩, ?_⟩
    rintro s rfl rfl hf
    exact execLoadstate_of_ne_zero hf (genState_ne_zero hne)

theorem toNat_append_eq_add {m n : Nat} (u : BitVec m) (v : BitVec n) : (u ++ v).toNat = u.toNat * 2 ^ n + v.toNat := by
  rw [BitVec.toNat_append, ← Nat.shiftLeft_add_eq_or_of_lt v.isLt, Nat.shiftLeft_eq]

/-- STATUS as a sum of its fields (R26). -/
theorem statusReg_eq_ofNat (b : Block) :
    statusReg b =
      BitVec.ofNat 64 ((if b.seeded then 1 else 0) + (if b.fault then 2 else 0) + 16 * b.faultCode.toNat) := by
  have hcode := b.faultCode.isLt
  apply BitVec.eq_of_toNat_eq
  rw [statusReg, BitVec.toNat_setWidth, BitVec.toNat_ofNat, toNat_append_eq_add, toNat_append_eq_add, toNat_append_eq_add,
    BitVec.toNat_ofBool, BitVec.toNat_ofBool]
  congr 1
  cases b.seeded <;> cases b.fault <;> simp <;> omega

/-! ### The avalanche -/

theorem mix128_injective {m : Wide} (hm : m.getLsbD 0 = true) : Function.Injective (mix128 m) :=
  have h := mixRound_injective hm
  h.comp (h.comp h)

theorem mix128_bijective {m : Wide} (hm : m.getLsbD 0 = true) : Function.Bijective (mix128 m) :=
  Finite.injective_iff_bijective.1 (mix128_injective hm)

@[simp] theorem mix128_zero (m : Wide) : mix128 m 0#128 = 0#128 := by
  simp [mix128, mixRound]

/-- R83: only seed 0 mixes to 0. -/
theorem mix128_eq_zero_iff {m : Wide} (hm : m.getLsbD 0 = true) {v : Wide} : mix128 m v = 0#128 ↔ v = 0#128 :=
  (mix128_injective hm).eq_iff' (mix128_zero m)

theorem mixedSeed_eq {m : Wide} (hm : m.getLsbD 0 = true) (fallback v : Wide) :
    mixedSeed m fallback v = if v = 0#128 then fallback else mix128 m v := by
  simp only [mixedSeed, mix128_eq_zero_iff hm]

theorem splitSeed_injective : Function.Injective splitSeed := by
  intro u v h
  obtain ⟨hlo, hhi⟩ := GenState.mk.inj h
  have hlo := congrArg BitVec.toNat hlo
  have hhi := congrArg BitVec.toNat hhi
  rw [lo64_toNat, lo64_toNat] at hlo
  rw [hi64_toNat, hi64_toNat] at hhi
  exact BitVec.eq_of_toNat_eq (by omega)

/-- Where the fallback is what `z` mixes to, seed 0 is mixed as `z` is, and every other seed as itself. -/
theorem mixedSeed_mix128 {m : Wide} (hm : m.getLsbD 0 = true) (z v : Wide) :
    mixedSeed m (mix128 m z) v = mix128 m (if v = 0#128 then z else v) := by
  rw [mixedSeed_eq hm, apply_ite (mix128 m)]

/-- R84: where `z` is the seed that mixes to the fallback, it and 0 are the only two seeds that share a state. -/
theorem seedState_eq_iff {m fallback z : Wide} (hm : m.getLsbD 0 = true) (hz : mix128 m z = fallback) (a b : Wide) :
    seedState m fallback a = seedState m fallback b ↔ a = b ∨ (a = 0#128 ∧ b = z) ∨ (a = z ∧ b = 0#128) := by
  rw [← hz, seedState, seedState, splitSeed_injective.eq_iff, mixedSeed_mix128 hm, mixedSeed_mix128 hm,
    (mix128_injective hm).eq_iff]
  by_cases ha : a = 0#128 <;> by_cases hb : b = 0#128
  · simp [ha, hb]
  · simpa [ha, hb, Ne.symm hb] using eq_comm
  · simp [ha, hb]
  · simp [ha, hb]

/-! ### The step -/

/-- The rotation of R13 is the library's. -/
theorem rotl64_eq_rotateLeft (v : Word) {k : Nat} (hk : k < 64) : rotl64 v k = v.rotateLeft k := by
  rw [BitVec.rotateLeft_def, Nat.mod_eq_of_lt hk, rotl64]

theorem rotl64_xor (u v : Word) {k : Nat} (hk : k < 64) : rotl64 (u ^^^ v) k = rotl64 u k ^^^ rotl64 v k := by
  simp only [rotl64_eq_rotateLeft _ hk]
  apply BitVec.eq_of_getLsbD_eq
  intro j hj
  by_cases hlow : j < k
  · simp [BitVec.getLsbD_rotateLeft, Nat.mod_eq_of_lt hk, hlow]
  · simp [Nat.mod_eq_of_lt hk, hlow, hj]

/-- A rotation loses no bit: the low bits stand above `k`, the others below. -/
theorem rotl64_eq_zero_iff {v : Word} {k : Nat} (hk : k < 64) : rotl64 v k = 0#64 ↔ v = 0#64 := by
  refine ⟨fun h => BitVec.eq_of_getLsbD_eq fun j hj => ?_, fun h => by simp [h, rotl64]⟩
  rw [rotl64, BitVec.or_eq_zero_iff] at h
  obtain ⟨hlow, hhigh⟩ := h
  by_cases hj' : j < 64 - k
  · have hbit := congrArg (fun u : Word => u.getLsbD (j + k)) hlow
    simpa [hj, show j + k < 64 by omega] using hbit
  · have hbit := congrArg (fun u : Word => u.getLsbD (j - (64 - k))) hhigh
    have hsum : 64 - k + (j - (64 - k)) = j := by omega
    rwa [BitVec.getLsbD_ushiftRight, hsum, BitVec.getLsbD_zero, ← BitVec.getLsbD_zero (i := j)] at hbit

theorem xor_xor_xor_comm (a b c d : Word) : a ^^^ b ^^^ (c ^^^ d) = a ^^^ c ^^^ (b ^^^ d) := by ac_rfl

theorem refAdvance_xor (a b : GenState) : refAdvance ⟨a.x ^^^ b.x, a.y ^^^ b.y⟩ =
    ⟨(refAdvance a).x ^^^ (refAdvance b).x, (refAdvance a).y ^^^ (refAdvance b).y⟩ := by
  rw [refAdvance, refAdvance, refAdvance, xor_xor_xor_comm a.y, rotl64_xor _ _ (by decide), rotl64_xor _ _ (by decide),
    BitVec.shiftLeft_xor_distrib, xor_xor_xor_comm (rotl64 a.x 24), xor_xor_xor_comm (rotl64 a.x 24 ^^^ _)]

/-- A zero `y'` makes `t` zero, so `x' = rotl64(x, 24)`, and both words are zero (R87). -/
theorem refAdvance_eq_zero_iff (g : GenState) : refAdvance g = ⟨0#64, 0#64⟩ ↔ g = ⟨0#64, 0#64⟩ := by
  refine ⟨fun h => ?_, fun h => by rw [h]; decide⟩
  obtain ⟨x, y⟩ := g
  obtain ⟨hx, hy⟩ := GenState.mk.inj h
  have ht : y ^^^ x = 0#64 := (rotl64_eq_zero_iff (by decide)).1 hy
  simp only [ht, BitVec.zero_shiftLeft, BitVec.xor_zero, rotl64_eq_zero_iff (show 24 < 64 by decide)] at hx
  rw [hx, BitVec.xor_zero] at ht
  rw [hx, ht]

/-- A linear map that takes only zero to zero is injective. -/
theorem refAdvance_injective : Function.Injective refAdvance := by
  intro a b h
  have hzero := refAdvance_xor a b
  rw [h, BitVec.xor_self, BitVec.xor_self, refAdvance_eq_zero_iff] at hzero
  obtain ⟨hx, hy⟩ := GenState.mk.inj hzero
  rw [BitVec.xor_eq_zero_iff] at hx hy
  exact congrArg₂ GenState.mk hx hy

theorem genState_finite : Finite GenState :=
  Finite.of_injective (fun g => (g.x, g.y)) fun ⟨_, _⟩ ⟨_, _⟩ h => by simpa using h

/-- `out` is symmetric, since the product is. -/
theorem out_comm (x y : Word) : out ⟨x, y⟩ = out ⟨y, x⟩ := by
  apply BitVec.eq_of_toNat_eq
  rw [out_toNat, out_toNat, Nat.mul_comm]

theorem out_zero_right (x : Word) : out ⟨x, 0#64⟩ = 0#64 := by
  apply BitVec.eq_of_toNat_eq
  simp [out_toNat]

/-- A product by 1 has no high half. -/
theorem out_one_left (y : Word) : out ⟨1#64, y⟩ = y := by
  apply BitVec.eq_of_toNat_eq
  have hy := y.isLt
  rw [out_toNat]
  simp [Nat.mod_eq_of_lt hy, Nat.div_eq_of_lt hy]

/-! ### Determinism: what a command does depends on the value of its block and on its operands (R93, R94) -/

/-- The outcomes `o` from `s` and `o'` from `s'` leave the same value in the block at hand and return the same response. -/
def SameAnswer (o : Result) (s : State) (o' : Result) (s' : State) : Prop :=
  ∃ b r, Answers o s b r ∧ Answers o' s' b r

theorem sameAnswer_respond {s s' : State} (hb : s.current = s'.current) (r : Response) :
    SameAnswer (.next (s.respond r)) s (.next (s'.respond r)) s' :=
  ⟨s.current, r, answers_respond s r, by rw [hb]; exact answers_respond s' r⟩

theorem sameAnswer_setCurrent_respond (s s' : State) (b : Block) (r : Response) :
    SameAnswer (.next ((s.setCurrent b).respond r)) s (.next ((s'.setCurrent b).respond r)) s' :=
  ⟨b, r, answers_setCurrent_respond s b r, answers_setCurrent_respond s' b r⟩

theorem sameAnswer_raise {s s' : State} (hb : s.current = s'.current) (c : FaultKind) :
    SameAnswer (.next (s.raise c)) s (.next (s'.raise c)) s' := by
  rw [State.raise, State.raise, hb]
  exact sameAnswer_setCurrent_respond s s' _ _

theorem sameAnswer_construct {s s' : State} (hb : s.current = s'.current) (g : GenState) :
    SameAnswer (.next (s.construct g)) s (.next (s'.construct g)) s' := by
  rw [State.construct, State.construct, hb]
  exact sameAnswer_setCurrent_respond s s' _ _

/-- R89: what a command does is a function of its operands and the block it acts on. -/
theorem exec_sameAnswer {i : Instr} {s s' : State} (hp : SameOperands i s'.port s.port) (hb : s.current = s'.current) :
    SameAnswer (exec i s) s (exec i s') s' := by
  cases exec_cases i s with
  | status hi h =>
    subst hi
    rw [h, hb]
    exact sameAnswer_respond hb _
  | refused hi hf h =>
    rw [h, exec_of_faulted hi (hb ▸ hf)]
    exact sameAnswer_respond hb _
  | unseeded hi hf hx h =>
    rw [h, exec_value i s' hi, valueCommand_of_unseeded (hb ▸ hf) (hb ▸ hx)]
    exact sameAnswer_raise hb _
  | zeroState hi hf hz h =>
    subst hi
    rw [h, execLoadstate_of_zero (hb ▸ hf) (hp.genState.trans hz)]
    exact sameAnswer_raise hb _
  | construct hf g hg hi h =>
    rw [h]
    obtain ⟨rfl, rfl⟩ | ⟨rfl, rfl⟩ := hi
    · rw [execSeed_of_ok (hb ▸ hf), hp.seed]
      exact sameAnswer_construct hb _
    · rw [execLoadstate_of_ne_zero (hb ▸ hf) (hp.genState.trans_ne hg), hp.genState]
      exact sameAnswer_construct hb _
  | value hi g hr h =>
    rw [h, exec_value i s' hi, valueCommand_of_ready ⟨hb ▸ hr.1, hb ▸ hr.2⟩, hp.valueResponse, hp.valueState, hb]
    exact sameAnswer_setCurrent_respond s s' _ _

theorem execWord_sameAnswer (w : CmdWord) {s s' : State} (hopa : s'.port.opa = s.port.opa)
    (hopb : s'.port.opb = s.port.opb) (hb : s.current = s'.current) : SameAnswer (execWord w s) s (execWord w s') s' := by
  obtain ⟨i, hd, h⟩ | ⟨e, hd, hf, h⟩ | ⟨e, hd, hf, h⟩ := execWord_cases w s
  · rw [h, execWord_of_decode hd]
    exact exec_sameAnswer ⟨by rw [hopa], by rw [hopb]⟩ hb
  · rw [h, execWord_of_not_decode (by simp [hd]), execIllegal, unlessFaulted_of_faulted (hb ▸ hf)]
    exact sameAnswer_respond hb _
  · rw [h, execWord_of_not_decode (by simp [hd]), execIllegal, unlessFaulted_of_ok (hb ▸ hf)]
    exact sameAnswer_raise hb _

/-- A valid block that has not faulted keeps nothing of what it held: its fault code is 0 too. -/
theorem Block.Valid.holding_eq_of_ok {b : Block} (h : b.Valid) (hf : b.fault = false) (g : GenState) :
    b.holding g = ⟨some g, false, 0#4⟩ := by
  have hcode : b.faultCode = 0#4 := by simpa [hf] using h.2
  rw [Block.holding, hf, hcode]

/-- R93: a successful construction leaves the same block and returns the same, whatever two unfaulted blocks held. -/
theorem construct_sameAnswer {i : Instr} {a b : Word} (hi : i = .seed ∨ (i = .loadstate ∧ ¬(a = 0#64 ∧ b = 0#64)))
    {s s' : State} (hs : s.port.opa = a ∧ s.port.opb = b) (hs' : s'.port.opa = a ∧ s'.port.opb = b)
    (hv : s.current.Valid) (hv' : s'.current.Valid) (hf : s.current.fault = false) (hf' : s'.current.fault = false) :
    SameAnswer (exec i s) s (exec i s') s' := by
  obtain ⟨g, hg⟩ := exists_construct hi
  rw [hg s hs.1 hs.2 hf, hg s' hs'.1 hs'.2 hf', State.construct, State.construct, hv.holding_eq_of_ok hf,
    hv'.holding_eq_of_ok hf']
  exact sameAnswer_setCurrent_respond s s' _ _

/-- Both runs of `n` steps complete with the same value in block `j` of one and block `k` of the other, and have returned
the same `n` responses from them. -/
def RunsAlike (n j k : Nat) (s s' : State) : Prop :=
  ∃ (t t' : State) (rs : List Response), run n s = .next t ∧ run n s' = .next t' ∧ t.block j = t'.block k ∧
    rs.length = n ∧ t.responses = rs.map (j, ·) ++ s.responses ∧ t'.responses = rs.map (k, ·) ++ s'.responses

/-- The platform with a command at block `k` at hand and `rest` still to come. -/
def State.atHand (s : State) (k : Nat) (opa opb : Word) (rest : List HostEvent) : State :=
  { s with pending := rest }.issue k opa opb

/-- A step that takes a command leaves in its block, and returns, what the command answers there. -/
theorem step_took {s : State} {k : Nat} {w : CmdWord} {opa opb : Word} {rest : List HostEvent} {b : Block} {r : Response}
    (hp : s.pending = .command k w opa opb :: rest) (hk : instanceExists k = true)
    (h : Answers (execWord w (s.atHand k opa opb rest)) (s.atHand k opa opb rest) b r) :
    ∃ t, step s = .next t ∧ Took k { s with pending := rest } t b [r] := by
  obtain ⟨t, ht, hcur, hother, hport, hpend, hresp⟩ := h
  rw [State.current_eq, hport] at hcur
  exact ⟨t, (step_of_command hp hk).trans ht, hcur, hother, hpend, hresp⟩

section
variable {j k : Nat} (hj : instanceExists j = true) (hk : instanceExists k = true)
include hj hk

/-- One command that answers the same at both blocks, before two runs that are alike from then on. -/
theorem runsAlike_cons {w : CmdWord} {opa opb : Word} {rest rest' : List HostEvent} {n : Nat} {s s' : State}
    (hp : s.pending = .command j w opa opb :: rest) (hp' : s'.pending = .command k w opa opb :: rest')
    (hsame : SameAnswer (execWord w (s.atHand j opa opb rest)) (s.atHand j opa opb rest)
      (execWord w (s'.atHand k opa opb rest')) (s'.atHand k opa opb rest'))
    (hrest : ∀ t t' : State, t.pending = rest → t'.pending = rest' → t.block j = t'.block k → RunsAlike n j k t t') :
    RunsAlike (n + 1) j k s s' := by
  obtain ⟨b, r, h, h'⟩ := hsame
  obtain ⟨t, ht, htook⟩ := step_took hp hj h
  obtain ⟨t', ht', htook'⟩ := step_took hp' hk h'
  obtain ⟨u, u', rs, hu, hu', hblock, hlen, hresp, hresp'⟩ :=
    hrest t t' htook.pending htook'.pending (htook.block_self.trans htook'.block_self.symm)
  refine ⟨u, u', rs ++ [r], (run_succ_of_step ht n).trans hu, (run_succ_of_step ht' n).trans hu', hblock,
    by simp [hlen], ?_, ?_⟩
  · simp [hresp, htook.responses]
  · simp [hresp', htook'.responses]

/-- R94: the same commands at two blocks of the same value. -/
theorem run_commandsTo_alike (cs : List (CmdWord × Word × Word)) {s s' : State} (hp : s.pending = commandsTo j cs)
    (hp' : s'.pending = commandsTo k cs) (hb : s.block j = s'.block k) : RunsAlike cs.length j k s s' := by
  induction cs generalizing s s' with
  | nil => exact ⟨s, s', [], rfl, rfl, hb, rfl, rfl, rfl⟩
  | cons c cs ih => exact runsAlike_cons hj hk hp hp' (execWord_sameAnswer c.1 rfl rfl hb) fun _ _ => ih

end

end Sys2Proof.Machine

section
open Sys2Proof Sys2Proof.Machine

/-- Settles O27: the construction makes the two blocks equal, and equal blocks answer the commands after it alike. -/
theorem sameConstructionSameResponses : Obligations.SameConstructionSameResponses := by
  intro s s' j k i a b cs hs hs' hj hk hf hf' hi
  have hrun : RunsAlike (cs.length + 1) j k { s with pending := commandsTo j ((encode i, a, b) :: cs) }
      { s' with pending := commandsTo k ((encode i, a, b) :: cs) } := by
    refine runsAlike_cons hj hk rfl rfl ?_ fun _ _ => run_commandsTo_alike hj hk cs
    rw [execWord_of_decode (decode_encode i), execWord_of_decode (decode_encode i)]
    exact construct_sameAnswer hi ⟨rfl, rfl⟩ ⟨rfl, rfl⟩ (hs.block_valid j) (hs'.block_valid k) hf hf'
  obtain ⟨t, t', rs, ht, ht', hblock, hlen, hresp, hresp'⟩ := hrun
  refine ⟨t, t', ht, ht', hblock, ?_⟩
  simp [hresp, hresp', ← hlen, Function.comp_def]

/-- Settles O19: an unfaulted SEED constructs `seedState`, whose definitions are the rounds and halves written out. -/
theorem seedConstructsTheMixedState : Obligations.SeedConstructsTheMixedState :=
  ⟨fun _ hf => executes_of_construct (execSeed_of_ok hf), by decide⟩

/-- Settles O20: an injective map of a finite type is a bijection, and it keeps 0. -/
theorem avalancheIsABijection : Obligations.AvalancheIsABijection :=
  ⟨fun m hm => ⟨mix128_bijective hm, mix128_zero m⟩, mixedSeed_eq seedMult_odd⟩

/-- Settles O21: the seed is the preimage of the fallback under the avalanche. -/
theorem oneSeedSharesTheFallbackState : Obligations.OneSeedSharesTheFallbackState := by
  refine ⟨?_, by decide⟩
  obtain ⟨z, hz⟩ := (mix128_bijective seedMult_odd).surjective seedFallback
  refine ⟨z, ?_, fun v => ?_, seedState_eq_iff seedMult_odd hz⟩
  · rintro rfl
    exact nonZero_ne_zero _ (hz.symm.trans (mix128_zero _))
  · rw [← hz, (mix128_injective seedMult_odd).eq_iff]

/-- Settles O25: an unfaulted LOADSTATE constructs its operands, or faults where both are 0. -/
theorem loadstateConstructsTheGivenState : Obligations.LoadstateConstructsTheGivenState := by
  refine ⟨fun s hf hne => ?_, fun s hf ha hb => ?_, by decide⟩
  · exact executes_of_construct (execLoadstate_of_ne_zero hf (genState_ne_zero hne))
  · rw [execLoadstate_of_zero hf (by rw [Port.genState, ha, hb])]
    exact raise_faults hf .zeroState

/-- Settles O26: RDSTATUS returns STATUS, read as a sum of its fields. -/
theorem rdstatusAnswersStatus : Obligations.RdstatusAnswersStatus := by
  intro s
  rw [← statusReg_eq_ofNat]
  exact answers_respond s _

/-- Settles O22: the corner cases are read off the exact product. -/
theorem outputFunction : Obligations.OutputFunction :=
  ⟨fun x y => out_toNat ⟨x, y⟩, out_zero_right, fun y => (out_comm _ y).trans (out_zero_right y), out_one_left, by decide,
    by decide, out_comm⟩

/-- Settles O23: linearity and the kernel give injectivity, and pairs of words are finite. -/
theorem referenceAdvance : Obligations.ReferenceAdvance := by
  have := genState_finite
  exact ⟨Finite.injective_iff_bijective.1 refAdvance_injective, refAdvance_eq_zero_iff, refAdvance_xor, by decide⟩

/-- Settles O24: of the cases of `exec` a value command has three, and only its run writes the words held. -/
theorem drawsAreTheOnlyMutation : Obligations.DrawsAreTheOnlyMutation := by
  intro i s t hv ht
  rw [exec_value i s hv] at ht
  obtain ⟨hf, h⟩ | ⟨hf, hx, h⟩ | ⟨g, ⟨hf, hx⟩, h⟩ := valueCommand_cases s _
  all_goals cases h.symm.trans ht
  · rw [State.refuse_current, if_pos hf]
    exact Option.map_id'.symm
  · rw [State.raise_current, Block.recording_of_ok _ hf, hx]
    rfl
  · rw [State.respond_current, State.setCurrent_current, hx, hf]
    rfl

end

/-! ### One-word conversions (spec/41_distribution.md): spans, floats, counts of words, and the commands -/

namespace Sys2Proof.Machine

/-! ### A value a bounded distance above `lo` (R109), for every width -/

section
variable {n : Nat} {lo hi o : BitVec n}

/-- For signed `lo ≤ hi` the wrapping distance is the true one (R103). -/
theorem toNat_sub_of_toInt_le (h : lo.toInt ≤ hi.toInt) : ((hi - lo).toNat : Int) = hi.toInt - lo.toInt := by
  have hlo := lo.isLt
  have hhi := hi.isLt
  rw [BitVec.toInt_eq_toNat_cond, BitVec.toInt_eq_toNat_cond] at *
  obtain hlt | hle := Nat.lt_or_ge hi.toNat lo.toNat
  · rw [BitVec.toNat_sub_of_lt hlt]
    split_ifs at * <;> omega
  · rw [BitVec.toNat_sub_of_le hle]
    split_ifs at * <;> omega

/-- Unsigned `lo ≤ hi`: adding an offset within the distance does not wrap. -/
theorem toNat_add_of_le_distance (h : lo.toNat ≤ hi.toNat) (ho : o.toNat ≤ (hi - lo).toNat) :
    (lo + o).toNat = lo.toNat + o.toNat := by
  have hhi := hi.isLt
  rw [BitVec.toNat_sub_of_le h] at ho
  exact BitVec.toNat_add_of_lt (by omega)

/-- Signed `lo ≤ hi`: adding an offset within the distance does not wrap. -/
theorem toInt_add_of_le_distance (h : lo.toInt ≤ hi.toInt) (ho : o.toNat ≤ (hi - lo).toNat) :
    (lo + o).toInt = lo.toInt + o.toNat := by
  have hd := toNat_sub_of_toInt_le h
  have hlo := lo.le_two_mul_toInt
  have hhi := hi.two_mul_toInt_lt
  rw [BitVec.toInt_add, o.toInt_eq_toNat_bmod, Int.add_bmod_bmod]
  apply Int.bmod_eq_of_le <;> push_cast <;> omega

theorem toNat_mem_of_le_distance (h : lo.toNat ≤ hi.toNat) (ho : o.toNat ≤ (hi - lo).toNat) :
    lo.toNat ≤ (lo + o).toNat ∧ (lo + o).toNat ≤ hi.toNat := by
  rw [toNat_add_of_le_distance h ho]
  rw [BitVec.toNat_sub_of_le h] at ho
  omega

theorem toInt_mem_of_le_distance (h : lo.toInt ≤ hi.toInt) (ho : o.toNat ≤ (hi - lo).toNat) :
    lo.toInt ≤ (lo + o).toInt ∧ (lo + o).toInt ≤ hi.toInt := by
  rw [toInt_add_of_le_distance h ho]
  have hd := toNat_sub_of_toInt_le h
  omega

end

/-! ### The offset in the span (R102 to R104) -/

theorem bnd32_le (w : Word) (max : Half) : (bnd32 w max).toNat ≤ max.toNat := by
  rw [bnd32_toNat]
  exact Nat.le_of_lt_succ (offset_lt w.isLt max.toNat.succ_pos)

/-- The offset `range64` adds to `lo` in a span that is not the full one (R103). -/
theorem offset64_toNat (w : Word) {d : Word} (hd : d ≠ 0xFFFFFFFFFFFFFFFF#64) :
    (hi64 (mul128 w (d + 1#64))).toNat = w.toNat * (d.toNat + 1) / 2 ^ 64 := by
  have hne : d.toNat ≠ 0xFFFFFFFFFFFFFFFF := fun he => hd (BitVec.eq_of_toNat_eq he)
  have hlt := d.isLt
  rw [hi64_mul128_toNat, BitVec.toNat_add_of_lt]
  · rfl
  · simp only [BitVec.toNat_ofNat]
    omega

theorem offset64_le (w : Word) {d : Word} (hd : d ≠ 0xFFFFFFFFFFFFFFFF#64) :
    (hi64 (mul128 w (d + 1#64))).toNat ≤ d.toNat := by
  rw [offset64_toNat w hd]
  exact Nat.le_of_lt_succ (offset_lt w.isLt d.toNat.succ_pos)

/-- `range64` off the full span, the offset in exact arithmetic (R103). -/
theorem range64_eq_add {w lo hi : Word} (h : hi - lo ≠ 0xFFFFFFFFFFFFFFFF#64) :
    range64 w lo hi = lo + BitVec.ofNat 64 (w.toNat * ((hi - lo).toNat + 1) / 2 ^ 64) := by
  rw [range64, if_neg h, ← offset64_toNat w h, BitVec.ofNat_toNat, BitVec.setWidth_eq]

/-- Whatever the span, `range64` is `lo` and an offset within the distance (R109). -/
theorem exists_range64_offset (w lo hi : Word) : ∃ o : Word, range64 w lo hi = lo + o ∧ o.toNat ≤ (hi - lo).toNat := by
  by_cases h : hi - lo = 0xFFFFFFFFFFFFFFFF#64
  · refine ⟨w - lo, ?_, ?_⟩
    · rw [range64_full w lo hi h, BitVec.add_comm, BitVec.sub_add_cancel]
    · rw [h]
      exact Nat.le_of_lt_succ (w - lo).isLt
  · exact ⟨_, if_neg h, offset64_le w h⟩

/-- Unsigned `lo ≤ hi`: `range64` in exact arithmetic, the full span included. -/
theorem range64_toNat_of_le {w lo hi : Word} (h : lo.toNat ≤ hi.toNat) :
    (range64 w lo hi).toNat = lo.toNat + w.toNat * (hi.toNat - lo.toNat + 1) / 2 ^ 64 := by
  rw [← BitVec.toNat_sub_of_le h]
  by_cases hd : hi - lo = 0xFFFFFFFFFFFFFFFF#64
  · have hspan : (hi - lo).toNat + 1 = 2 ^ 64 := by rw [hd]; rfl
    have hlo : lo.toNat = 0 := by
      rw [BitVec.toNat_sub_of_le h] at hspan
      have hhi := hi.isLt
      omega
    rw [range64_full w lo hi hd, hspan, Nat.mul_div_cancel _ (by norm_num), hlo, Nat.zero_add]
  · rw [range64, if_neg hd, toNat_add_of_le_distance h (offset64_le w hd), offset64_toNat w hd]

/-- Signed `lo ≤ hi` off the full span: `range64` in exact arithmetic. -/
theorem range64_toInt_of_le {w lo hi : Word} (h : lo.toInt ≤ hi.toInt) (hd : hi - lo ≠ 0xFFFFFFFFFFFFFFFF#64) :
    (range64 w lo hi).toInt = lo.toInt + (w.toNat : Int) * (hi.toInt - lo.toInt + 1) / 2 ^ 64 := by
  rw [range64, if_neg hd, toInt_add_of_le_distance h (offset64_le w hd), offset64_toNat w hd,
    ← toNat_sub_of_toInt_le h]
  push_cast
  rfl

/-- `lo = hi` leaves one value (R103). -/
theorem range64_self (w lo : Word) : range64 w lo lo = lo := by
  apply BitVec.eq_of_toNat_eq
  rw [range64_toNat_of_le le_rfl, Nat.sub_self, Nat.zero_add, Nat.mul_one, Nat.div_eq_of_lt w.isLt, Nat.add_zero]

/-- Unsigned `lo ≤ hi`: `range32` in exact arithmetic. -/
theorem range32_toNat_of_le {w : Word} {lo hi : Half} (h : lo.toNat ≤ hi.toNat) :
    (range32 w lo hi).toNat = lo.toNat + w.toNat * (hi.toNat - lo.toNat + 1) / 2 ^ 64 := by
  rw [range32, toNat_add_of_le_distance h (bnd32_le w _), bnd32_toNat, BitVec.toNat_sub_of_le h]

/-- Signed `lo ≤ hi`: `range32` in exact arithmetic. -/
theorem range32_toInt_of_le {w : Word} {lo hi : Half} (h : lo.toInt ≤ hi.toInt) :
    (range32 w lo hi).toInt = lo.toInt + (w.toNat : Int) * (hi.toInt - lo.toInt + 1) / 2 ^ 64 := by
  rw [range32, toInt_add_of_le_distance h (bnd32_le w _), bnd32_toNat, ← toNat_sub_of_toInt_le h]
  push_cast
  rfl

/-! ### How many words give an offset (R110) -/

/-- The least word whose offset in a span of `s` is `k` or more. -/
def offsetStart (s k : Nat) : Nat := (k * 2 ^ 64 + s - 1) / s

section
variable {s : Nat}

theorem offsetStart_le_iff (hs : 0 < s) (k n : Nat) : offsetStart s k ≤ n ↔ k * 2 ^ 64 ≤ n * s := by
  rw [Nat.mul_comm n]
  exact ceilDiv_le_iff_le_mul hs

theorem offsetStart_zero (hs : 0 < s) : offsetStart s 0 = 0 :=
  Nat.le_zero.mp ((offsetStart_le_iff hs 0 0).mpr (by omega))

theorem offsetStart_self (hs : 0 < s) : offsetStart s s = 2 ^ 64 := by
  refine eq_of_forall_ge_iff fun n => ?_
  rw [offsetStart_le_iff hs, Nat.mul_comm, Nat.mul_le_mul_right_iff hs]

/-- In the full span each word is its own offset. -/
theorem offsetStart_full (k : Nat) : offsetStart (2 ^ 64) k = k := by
  refine eq_of_forall_ge_iff fun n => ?_
  rw [offsetStart_le_iff (by norm_num), Nat.mul_le_mul_right_iff (by norm_num)]

theorem offsetStart_mono (hs : 0 < s) : Monotone (offsetStart s) := fun i j h =>
  (offsetStart_le_iff hs i _).mpr
    ((Nat.mul_le_mul_right _ h).trans ((offsetStart_le_iff hs j _).mp le_rfl))

/-- The offset of word `n` is `k` exactly from one start to the next. -/
theorem offset_eq_iff (hs : 0 < s) (k n : Nat) :
    n * s / 2 ^ 64 = k ↔ offsetStart s k ≤ n ∧ n < offsetStart s (k + 1) := by
  rw [← not_le (a := offsetStart s (k + 1)), offsetStart_le_iff hs, offsetStart_le_iff hs]
  omega

/-- The words that give offset `k` are an interval. -/
theorem countWords_of_offset (hs : 0 < s) {k : Nat} (hk : k < s) {p : Word → Bool}
    (hp : ∀ w, p w = true ↔ w.toNat * s / 2 ^ 64 = k) :
    countWords p = offsetStart s (k + 1) - offsetStart s k := by
  have hend : offsetStart s (k + 1) ≤ 2 ^ 64 := offsetStart_self hs ▸ offsetStart_mono hs hk
  rw [countWords, ← Nat.card_Ico]
  refine congrArg Finset.card (Finset.ext fun n => ?_)
  rw [Finset.mem_filter, Finset.mem_range, Finset.mem_Ico, hp, ← offset_eq_iff hs, BitVec.toNat_ofNat]
  refine ⟨fun ⟨hn, h⟩ => ?_, fun h => ?_⟩
  · rwa [Nat.mod_eq_of_lt hn] at h
  · have hn : n < 2 ^ 64 := ((offset_eq_iff hs k n).mp h).2.trans_le hend
    rw [Nat.mod_eq_of_lt hn]
    exact ⟨hn, h⟩

/-- Adding `d` to a dividend adds `floor(d / s)` or `ceil(d / s)` to the quotient. -/
theorem add_div_eq_or (hs : 0 < s) (x d : Nat) :
    (x + d) / s = x / s + d / s ∨ (x + d) / s = x / s + (d + s - 1) / s := by
  have hpred : s - 1 < s := Nat.sub_lt hs Nat.one_pos
  have hx := Nat.mod_lt x hs
  rw [Nat.add_sub_assoc hs, Nat.add_div hs, Nat.add_div (b := s - 1) hs, Nat.div_eq_of_lt hpred, Nat.mod_eq_of_lt hpred]
  split_ifs <;> omega

/-- Neighbouring starts are `floor(2^64 / s)` or `ceil(2^64 / s)` apart. -/
theorem offsetStart_succ_sub (hs : 0 < s) (k : Nat) :
    offsetStart s (k + 1) - offsetStart s k = 2 ^ 64 / s ∨
    offsetStart s (k + 1) - offsetStart s k = (2 ^ 64 + s - 1) / s := by
  have hsucc : (k + 1) * 2 ^ 64 + s - 1 = k * 2 ^ 64 + s - 1 + 2 ^ 64 := by omega
  rw [offsetStart, offsetStart, hsucc]
  exact (add_div_eq_or hs _ _).imp Nat.sub_eq_of_eq_add' Nat.sub_eq_of_eq_add'

/-- The counts of R110 in a span of `s`, where `gives k w` says that word `w` gives offset `k`. -/
def BiasedCounts (s : Nat) (gives : Nat → Word → Bool) : Prop :=
  (∀ k, k < s →
    countWords (gives k) = ((k + 1) * 2 ^ 64 + s - 1) / s - (k * 2 ^ 64 + s - 1) / s ∧
    (countWords (gives k) = 2 ^ 64 / s ∨ countWords (gives k) = (2 ^ 64 + s - 1) / s)) ∧
  ((∀ k, k < s → countWords (gives k) = countWords (gives 0)) → s ∣ 2 ^ 64)

/-- The counts of all offsets add up to 2^64, so `s` equal ones divide it. -/
theorem biasedCounts_of_countWords (hs : 0 < s) {gives : Nat → Word → Bool}
    (h : ∀ k < s, countWords (gives k) = offsetStart s (k + 1) - offsetStart s k) : BiasedCounts s gives := by
  refine ⟨fun k hk => ⟨h k hk, ?_⟩, fun heq => ⟨countWords (gives 0), ?_⟩⟩
  · rw [h k hk]
    exact offsetStart_succ_sub hs k
  · calc 2 ^ 64 = ∑ k ∈ Finset.range s, (offsetStart s (k + 1) - offsetStart s k) := by
          rw [Finset.sum_range_tsub (offsetStart_mono hs), offsetStart_self hs, offsetStart_zero hs, Nat.sub_zero]
      _ = ∑ _k ∈ Finset.range s, countWords (gives 0) := by
          refine Finset.sum_congr rfl fun k hk => ?_
          have hks := Finset.mem_range.mp hk
          rw [← h k hks, heq k hks]
      _ = s * countWords (gives 0) := by rw [Finset.sum_const, Finset.card_range, smul_eq_mul]

theorem biasedCounts_of_offset (hs : 0 < s) {gives : Nat → Word → Bool}
    (h : ∀ k < s, ∀ w, gives k w = true ↔ w.toNat * s / 2 ^ 64 = k) : BiasedCounts s gives :=
  biasedCounts_of_countWords hs fun k hk => countWords_of_offset hs hk (h k hk)

end

theorem bnd32_biasedCounts (max : Half) :
    BiasedCounts (max.toNat + 1) (fun k w => bnd32 w max == BitVec.ofNat 32 k) := by
  refine biasedCounts_of_offset max.toNat.succ_pos fun k hk w => ?_
  have hmax := max.isLt
  rw [beq_iff_eq, BitVec.toNat_eq, bnd32_toNat, BitVec.toNat_ofNat, Nat.mod_eq_of_lt (by omega)]

theorem range32_biasedCounts (lo hi : Half) :
    BiasedCounts ((hi - lo).toNat + 1) (fun k w => range32 w lo hi == lo + BitVec.ofNat 32 k) := by
  have hgives : (fun k w => range32 w lo hi == lo + BitVec.ofNat 32 k) =
      fun k w => bnd32 w (hi - lo) == BitVec.ofNat 32 k := by
    funext k w
    rw [Bool.eq_iff_iff, beq_iff_eq, beq_iff_eq, range32, BitVec.add_right_inj]
  rw [hgives]
  exact bnd32_biasedCounts (hi - lo)

/-- One word is equal to a given one. -/
theorem countWords_beq (v : Word) : countWords (fun w => w == v) = 1 := by
  rw [countWords, Finset.card_eq_one]
  refine ⟨v.toNat, Finset.ext fun n => ?_⟩
  rw [Finset.mem_filter, Finset.mem_range, Finset.mem_singleton, beq_iff_eq, BitVec.toNat_eq, BitVec.toNat_ofNat]
  refine ⟨fun ⟨hn, h⟩ => ?_, fun h => ?_⟩
  · rwa [Nat.mod_eq_of_lt hn] at h
  · rw [h, Nat.mod_eq_of_lt v.isLt]
    exact ⟨v.isLt, rfl⟩

theorem range64_biasedCounts (lo hi : Word) :
    BiasedCounts ((hi - lo).toNat + 1) (fun k w => range64 w lo hi == lo + BitVec.ofNat 64 k) := by
  have hlt := (hi - lo).isLt
  by_cases hd : hi - lo = 0xFFFFFFFFFFFFFFFF#64
  · have hspan : (hi - lo).toNat + 1 = 2 ^ 64 := by rw [hd]; rfl
    rw [hspan]
    refine biasedCounts_of_countWords (by norm_num) fun k _ => ?_
    simp only [range64_full _ lo hi hd, countWords_beq, offsetStart_full]
    omega
  · refine biasedCounts_of_offset (hi - lo).toNat.succ_pos fun k hk w => ?_
    rw [beq_iff_eq, range64, if_neg hd, BitVec.add_right_inj, BitVec.toNat_eq, offset64_toNat w hd, BitVec.toNat_ofNat,
      Nat.mod_eq_of_lt (by omega)]

/-! ### Trailing zeros (R13, R108) -/

theorem trailingZeros_eq_iff {width k : Nat} (hk : k < width) (n : Nat) :
    trailingZeros width n = k ↔ n % 2 ^ (k + 1) = 2 ^ k := by
  induction width generalizing n k with
  | zero => omega
  | succ width ih =>
    unfold trailingZeros
    cases k with
    | zero => split <;> omega
    | succ k =>
      have hrec := ih (by omega : k < width) (n / 2)
      have hmod : n % 2 ^ (k + 1 + 1) = n % 2 + 2 * (n / 2 % 2 ^ (k + 1)) := by
        rw [Nat.pow_succ', Nat.mod_mul]
      have hpow : 2 ^ (k + 1) = 2 * 2 ^ k := Nat.pow_succ'
      split <;> omega

theorem two_pow_trailingZeros_dvd (width n : Nat) : 2 ^ trailingZeros width n ∣ n := by
  induction width generalizing n with
  | zero => exact one_dvd n
  | succ width ih =>
    unfold trailingZeros
    split
    · exact one_dvd n
    · next h =>
      have hn : n = 2 * (n / 2) := by omega
      have hdvd := Nat.mul_dvd_mul_left 2 (ih (n / 2))
      rwa [← hn, ← Nat.pow_succ'] at hdvd

theorem ctz64_eq_zero_iff (w : Word) : ctz64 w = 0 ↔ w.getLsbD 0 = true := by
  rw [ctz64, trailingZeros_eq_iff (by norm_num), BitVec.getLsbD, Nat.testBit_zero, decide_eq_true_iff]
  rfl

/-- The words with `k` trailing zeros are the `n` with `n mod 2^(k+1) = 2^k`, one residue of 2^(k+1). -/
theorem countWords_ctz64 {k : Nat} (hk : k < 64) : countWords (fun w => ctz64 w == k) = 2 ^ (63 - k) := by
  have hdvd : 2 ^ (k + 1) ∣ 2 ^ 64 := Nat.pow_dvd_pow 2 hk
  have hpos : 0 < 2 ^ (k + 1) := Nat.two_pow_pos _
  have hlt : 2 ^ k < 2 ^ (k + 1) := Nat.pow_lt_pow_right one_lt_two k.lt_succ_self
  have hres : ∀ n, (ctz64 (BitVec.ofNat 64 n) == k) = true ↔ n ≡ 2 ^ k [MOD 2 ^ (k + 1)] := by
    intro n
    rw [beq_iff_eq, ctz64, trailingZeros_eq_iff hk, BitVec.toNat_ofNat, Nat.mod_mod_of_dvd _ hdvd, Nat.ModEq,
      Nat.mod_eq_of_lt hlt]
  rw [countWords, Finset.filter_congr fun n _ => hres n, ← Nat.count_eq_card_filter_range, Nat.count_modEq_card _ hpos,
    Nat.mod_eq_zero_of_dvd hdvd, if_neg (Nat.not_lt_zero _), Nat.add_zero, Nat.pow_div hk two_pos]
  congr 1
  omega

/-! ### The floats (R105 to R108) -/

theorem open01F64_low_bits {w : Word} (h : 13 ≤ ctz64 w) : (open01F64 w).toNat % 2 ^ (ctz64 w - 12) = 0 := by
  have hle := ctz64_le w
  have hexp : 2 ^ (ctz64 w - 12) ∣ (1022 - ctz64 w) * 2 ^ 52 :=
    Nat.dvd_mul_left_of_dvd (Nat.pow_dvd_pow 2 (by omega)) _
  have hfrac : 2 ^ (ctz64 w - 12) ∣ w.toNat / 2 ^ 12 := by
    apply Nat.dvd_div_of_mul_dvd
    rw [← Nat.pow_add, Nat.add_sub_cancel' (by omega)]
    exact two_pow_trailingZeros_dvd 64 w.toNat
  rw [open01F64_toNat]
  exact Nat.mod_eq_zero_of_dvd (Nat.dvd_add hexp hfrac)

theorem testBit_u32Of (w : Word) (j : Nat) : (u32Of w).toNat.testBit j = w.getLsbD (32 + j) := by
  rw [u32Of_toNat, Nat.testBit_div_two_pow, Nat.add_comm]
  rfl

theorem open01F32_congr {w w' : Word} (h : u32Of w = u32Of w') : open01F32 w = open01F32 w' := by
  rw [open01F32, open01F32, h]

/-- A significand of `p + 1` bits, its top bit set, scaled below `2^e` with `e ≤ top`: its binade, and the largest value of
the top binade. -/
theorem significand_bounds {p m j e top : Nat} (h : 2 ^ p ≤ m) (h' : m < 2 ^ (p + 1)) (he : p + 1 + j = e)
    (htop : e ≤ top) :
    (2 : Int) ^ (e - 1) ≤ (m * 2 ^ j : Nat) ∧ ((m * 2 ^ j : Nat) : Int) < 2 ^ e ∧
    ((m * 2 ^ j : Nat) : Int) ≤ 2 ^ top - 2 ^ (top - (p + 1)) := by
  have hm : (m : Int) ≤ 2 ^ (p + 1) - 1 := Int.le_sub_one_of_lt (by exact_mod_cast h')
  obtain ⟨d, hd⟩ := Nat.exists_eq_add_of_le htop
  push_cast
  refine ⟨?_, ?_, ?_⟩
  · rw [show e - 1 = p + j by omega, pow_add]
    gcongr
    exact_mod_cast h
  · rw [← he, pow_add]
    gcongr
    exact_mod_cast h'
  · calc (m : Int) * 2 ^ j ≤ (2 ^ (p + 1) - 1) * 2 ^ (j + d) :=
          mul_le_mul hm (pow_le_pow_right₀ one_le_two (Nat.le_add_right j d)) (by positivity)
            ((Int.natCast_nonneg m).trans hm)
      _ = 2 ^ top - 2 ^ (top - (p + 1)) := by
          rw [sub_mul, one_mul, ← pow_add, show p + 1 + (j + d) = top by omega, show top - (p + 1) = j + d by omega]

/-- The value of `open01_f64`, its binade and its bound (R108), in units of 2^-1074; the zero word counts 64 zeros. -/
theorem open01F64_value (w : Word) : ∃ v : Int, f64FromBits (open01F64 w) = .finite v ∧
    2 ^ (1074 - ctz64 w - 1) ≤ v ∧ v < 2 ^ (1074 - ctz64 w) ∧ v ≤ 2 ^ 1074 - 2 ^ (1074 - 53) := by
  have hz := ctz64_le w
  have hf : w.toNat / 2 ^ 12 < 2 ^ 52 := by have := w.isLt; omega
  exact ⟨_, f64FromBits_normal (open01F64_toNat w) hf (by omega) (by omega),
    significand_bounds (p := 52) (by omega) (by omega) (by omega) (by omega)⟩

/-- The value of `open01_f32`, its binade and its bound (R108), in units of 2^-149. -/
theorem open01F32_value (w : Word) : ∃ v : Int, f32FromBits (open01F32 w) = .finite v ∧
    2 ^ (149 - ctz32 (u32Of w) - 1) ≤ v ∧ v < 2 ^ (149 - ctz32 (u32Of w)) ∧ v ≤ 2 ^ 149 - 2 ^ (149 - 24) := by
  have hz := ctz32_le (u32Of w)
  have hf : w.toNat / 2 ^ 41 < 2 ^ 23 := by have := w.isLt; omega
  exact ⟨_, f32FromBits_normal (open01F32_toNat w) hf (by omega) (by omega),
    significand_bounds (p := 23) (by omega) (by omega) (by omega) (by omega)⟩

/-! ### The Bernoulli comparison (R107) -/

theorem f64FromBits_zero : f64FromBits 0#64 = .finite 0 := by decide

theorem f64FromBits_half : f64FromBits 0x3FE0000000000000#64 = .finite (2 ^ 1073) := by decide +kernel

theorem f64FromBits_one : f64FromBits 0x3FF0000000000000#64 = .finite (2 ^ 1074) := by decide +kernel

/-- The value of `open01_f64` is positive and below 1, and below one half exactly when bit 0 of the word is clear. -/
theorem open01F64_pos_lt_one (w : Word) :
    ∃ v : Int, f64FromBits (open01F64 w) = .finite v ∧
      0 < v ∧ v < 2 ^ 1074 ∧ (v < 2 ^ 1073 ↔ w.getLsbD 0 = false) := by
  obtain ⟨v, hv, hlo, hhi, -⟩ := open01F64_value w
  refine ⟨v, hv, (pow_pos two_pos _).trans_le hlo, hhi.trans_le (pow_le_pow_right₀ one_le_two (Nat.sub_le _ _)), ?_⟩
  rw [← Bool.not_eq_true, ← ctz64_eq_zero_iff]
  refine ⟨fun h hz => ?_, fun hz => hhi.trans_le (pow_le_pow_right₀ one_le_two (by omega))⟩
  rw [hz] at hlo
  exact h.not_ge hlo

/-! ### A one-word command at a ready block -/

/-- On a ready block a value command that draws one word returns its response and advances once. -/
theorem executes_of_value {i : Instr} {s : State} {g : GenState} {v : Word} (hg : s.Ready g) (hi : i.isValue = true)
    (hd : drawsOf i s.port.opa = 1) (hv : valueResponse i s.port g = Response.value v) :
    Executes i s (advance g) v 0#64 [] := by
  rw [Executes, exec_value i s hi, valueCommand_of_ready hg, hv, valueState, hd]
  exact answers_setCurrent_respond s _ _

theorem eq_ofNat_of_toNat {v : Word} {n : Nat} (h : v.toNat = n) : v = BitVec.ofNat 64 n := by
  rw [← h, BitVec.ofNat_toNat, BitVec.setWidth_eq]

theorem place32_eq_ofNat {v : Half} {n : Nat} (h : v.toNat = n) : place32 v = BitVec.ofNat 64 n :=
  eq_ofNat_of_toNat ((place32_toNat v).trans h)

theorem setWidth_place32 (v : Half) : (place32 v).setWidth 32 = v := by
  rw [place32, BitVec.setWidth_setWidth_of_le _ (by norm_num), BitVec.setWidth_eq]

theorem opa32_eq_setWidth (p : Port) : p.opa32 = p.opa.setWidth 32 :=
  BitVec.eq_of_toNat_eq ((opa32_toNat p).trans (BitVec.toNat_setWidth 32 p.opa).symm)

theorem opb32_eq_setWidth (p : Port) : p.opb32 = p.opb.setWidth 32 :=
  BitVec.eq_of_toNat_eq ((opb32_toNat p).trans (BitVec.toNat_setWidth 32 p.opb).symm)

end Sys2Proof.Machine

section
open Sys2Proof Sys2Proof.Machine

/-- Settles O28: the corner cases are read off the exact product. -/
theorem boundedFunction : Obligations.BoundedFunction := by
  refine ⟨bnd32_toNat, fun w => ?_, fun w => ?_, fun max => ?_, fun max => ?_⟩
  all_goals
    apply BitVec.eq_of_toNat_eq
    rw [bnd32_toNat]
  · rw [BitVec.toNat_ofNat, Nat.zero_mod, Nat.zero_add, Nat.mul_one]
    exact Nat.div_eq_of_lt w.isLt
  · rw [← u32Of, u32Of_toNat, BitVec.toNat_ofNat]
    omega
  · rw [BitVec.toNat_ofNat, Nat.zero_mod, Nat.zero_mul, Nat.zero_div]
    rfl
  · have hmax := max.isLt
    rw [BitVec.toNat_ofNat]
    omega

/-- Settles O29: the count is `ctz64`, and a power of two that divides the word divides its fraction. -/
theorem openF64Pattern : Obligations.OpenF64Pattern := by
  refine ⟨fun w => ?_, by decide, by decide, by decide⟩
  obtain ⟨hclear, hset⟩ := trailingZeros_spec 64 w.toNat
  exact ⟨ctz64 w, ctz64_le w, hclear, hset, open01F64_toNat w, open01F64_low_bits⟩

/-- Settles O30: the count and the fraction are those of the high half, and no other bit is read. -/
theorem openF32Pattern : Obligations.OpenF32Pattern := by
  refine ⟨fun w => ?_, fun w w' h => ?_, by decide, by decide, by decide⟩
  · obtain ⟨hclear, hset⟩ := trailingZeros_spec 32 (u32Of w).toNat
    simp only [testBit_u32Of] at hclear hset
    exact ⟨ctz32 (u32Of w), ctz32_le _, hclear, hset, open01F32_toNat w⟩
  · exact open01F32_congr (BitVec.eq_of_toNat_eq (by rw [u32Of_toNat, u32Of_toNat, h]))

/-- Settles O31: the float of a word is finite, above 0, below 1, and below one half exactly when bit 0 is clear. -/
theorem bernoulliComparison : Obligations.BernoulliComparison := by
  intro w
  obtain ⟨v, hv, hpos, hone, hhalf⟩ := open01F64_pos_lt_one w
  have hbern : ∀ p, bern w p = ltF64 (.finite v) p := fun p => by rw [bern, hv]
  refine ⟨fun _ => rfl, ?_, ?_, ?_, ?_, fun p hp => ?_, ?_, fun p hp => ?_, ?_, ?_⟩ <;> rw [hbern]
  · rw [f64FromBits_zero]
    exact decide_eq_false hpos.not_gt
  · rw [f64FromBits_negZero, f64FromBits_zero]
    exact decide_eq_false hpos.not_gt
  · rw [f64FromBits_one]
    exact decide_eq_true hone
  · rw [f64FromBits_half, ltF64, Bool.eq_iff_iff, decide_eq_true_iff, hhalf, Bool.not_eq_true']
  · exact decide_eq_true (hone.trans hp)
  · rfl
  · exact decide_eq_false (hp.trans hpos).not_gt
  · rfl
  · rfl

/-- Settles O32: both formats scale a significand that has its top bit set. -/
theorem floatResultsInTheOpenInterval : Obligations.FloatResultsInTheOpenInterval := by
  intro w
  obtain ⟨v, hv, hlo, hhi, htop⟩ := open01F64_value w
  obtain ⟨u, hu, hulo, -, hutop⟩ := open01F32_value w
  have hz := ctz64_le w
  have hzu := ctz32_le (u32Of w)
  rw [Nat.sub_sub] at hlo hulo
  have hmin : (2 : Int) ^ (1074 - 65) ≤ v := (pow_le_pow_right₀ one_le_two (by omega)).trans hlo
  have humin : (2 : Int) ^ (149 - 33) ≤ u := (pow_le_pow_right₀ one_le_two (by omega)).trans hulo
  exact ⟨⟨v, hv, hmin, htop, fun _ => ⟨hlo, hhi⟩⟩, u, hu, humin, hutop⟩

/-- Settles O33: one residue of 2^(k+1) among the words. -/
theorem trailingZeroCounts : Obligations.TrailingZeroCounts := fun _ hk => countWords_ctz64 hk

/-- Settles O34: each result is `lo` and an offset within the distance. -/
theorem rangeContainment : Obligations.RangeContainment := by
  refine ⟨fun w s hs => ?_, bnd32_le, fun w lo hi h => ?_, fun w lo hi h => ?_, fun w lo hi h => ?_, fun w lo hi h => ?_⟩
  · rw [hi64_mul128_toNat]
    exact offset_lt w.isLt hs
  · obtain ⟨o, ho, hle⟩ := exists_range64_offset w lo hi
    exact ho ▸ toNat_mem_of_le_distance h hle
  · obtain ⟨o, ho, hle⟩ := exists_range64_offset w lo hi
    exact ho ▸ toInt_mem_of_le_distance h hle
  · exact toNat_mem_of_le_distance h (bnd32_le w _)
  · exact toInt_mem_of_le_distance h (bnd32_le w _)

/-- Settles O35: the words of one offset are an interval between two ceilings. -/
theorem multiplyHighBias : Obligations.MultiplyHighBias :=
  ⟨bnd32_biasedCounts, range32_biasedCounts, range64_biasedCounts⟩

/-- Settles O36: the top bit is the comparison with 2^63. -/
theorem boolReturnsTheTopBit : Obligations.BoolReturnsTheTopBit := by
  intro s g hg
  have h := executes_of_value (i := .bool) hg rfl rfl rfl
  simpa only [boolOf_eq, placeBool, decide_eq_true_eq] using h

/-- Settles O37: BERNOULLI places the comparison of R107. -/
theorem bernoulliReturnsTheTrial : Obligations.BernoulliReturnsTheTrial :=
  fun _ _ hg => executes_of_value hg rfl rfl rfl

/-- Settles O38: the words as they are, or their high half. -/
theorem wordCommandsReturnTheWord : Obligations.WordCommandsReturnTheWord := by
  intro s g hg
  rw [← place32_eq_ofNat (u32Of_toNat (out g))]
  refine ⟨?_, ?_, ?_, ?_⟩ <;> exact executes_of_value hg rfl rfl rfl

/-- Settles O39: BOUNDED_U32 places `bnd32`. -/
theorem boundedReturnsTheScaledWord : Obligations.BoundedReturnsTheScaledWord := by
  intro s g hg
  rw [← opa32_toNat, ← place32_eq_ofNat (bnd32_toNat (out g) s.port.opa32)]
  exact executes_of_value hg rfl rfl rfl

/-- Settles O40: RANGE_U64 returns `range64`, which each clause reads. -/
theorem rangeU64ReturnsTheScaledWord : Obligations.RangeU64ReturnsTheScaledWord := by
  intro s g hg
  refine ⟨_, executes_of_value hg rfl rfl rfl, range64_full _ _ _, range64_eq_add, range64_toNat_of_le, fun h => ?_⟩
  rw [← h]
  exact range64_self _ _

/-- Settles O41: RANGE_I64 returns `range64`, which each clause reads. -/
theorem rangeI64ReturnsTheScaledWord : Obligations.RangeI64ReturnsTheScaledWord :=
  fun _ _ hg => ⟨_, executes_of_value hg rfl rfl rfl, range64_full _ _ _, range64_eq_add, range64_toInt_of_le⟩

/-- Settles O42: RANGE_U32 places `range32`, and its operands are the low halves of the buses. -/
theorem rangeU32ReturnsTheScaledWord : Obligations.RangeU32ReturnsTheScaledWord := by
  intro s g hg
  dsimp only
  rw [← opa32_toNat, ← opb32_toNat]
  refine ⟨_, executes_of_value hg rfl rfl rfl, ?_, fun h => ?_⟩ <;> rw [place32_toNat]
  · have hlo := s.port.opa32.isLt
    rw [range32_toNat, BitVec.toNat_sub', Nat.add_sub_assoc hlo.le s.port.opb32.toNat]
  · exact range32_toNat_of_le h

/-- Settles O43: RANGE_I32 places `range32`, and its operands are the low halves of the buses. -/
theorem rangeI32ReturnsTheScaledWord : Obligations.RangeI32ReturnsTheScaledWord := by
  intro s g hg
  dsimp only
  rw [← opa32_eq_setWidth, ← opb32_eq_setWidth]
  refine ⟨_, executes_of_value hg rfl rfl rfl, ?_, fun h => ?_⟩
  · rw [place32_toNat, range32_toNat]
  · rw [setWidth_place32, range32_toInt_of_le h]

/-- Settles O44: the patterns in exact arithmetic. -/
theorem openCommandsReturnTheFloats : Obligations.OpenCommandsReturnTheFloats := by
  intro s g hg
  rw [← eq_ofNat_of_toNat (open01F64_toNat (out g)), ← u32Of, ← place32_eq_ofNat (open01F32_toNat (out g))]
  exact ⟨executes_of_value hg rfl rfl rfl, executes_of_value hg rfl rfl rfl⟩

end

/-! ### SPLIT and FILL (spec/42_split_fill.md): any value command at a ready block, and a run of U64 beside one FILL -/

namespace Sys2Proof.Machine

/-! ### A value command at a ready block, whatever it draws -/

/-- On a ready block a value command returns its response and advances once for each word it draws. -/
theorem answers_of_value {i : Instr} {s : State} {g : GenState} (hg : s.Ready g) (hi : i.isValue = true) :
    Answers (exec i s) s (s.current.holding (valueState i s.port g)) (valueResponse i s.port g) := by
  rw [exec_value i s hi, valueCommand_of_ready hg]
  exact answers_setCurrent_respond s _ _

/-- R140: the child is the two words drawn, the first forced odd. -/
theorem executes_split {s : State} {g : GenState} (hg : s.Ready g) :
    Executes .split s (advance (advance g)) (out g ||| 1#64) (out (advance g)) [] :=
  answers_of_value hg rfl

/-- A next state that shows one response after those of `s` shows the one that was answered. -/
theorem Answers.response_eq {o : Result} {s t : State} {b : Block} {r r' : Response} (h : Answers o s b r)
    (ht : o = .next t) (hr : t.responses = (s.port.target, r') :: s.responses) : r' = r := by
  obtain ⟨u, hu, -, -, -, -, hresp⟩ := h
  cases hu.symm.trans ht
  cases hr.symm.trans hresp
  rfl

/-- The word SPLIT forces odd is odd (R140). -/
theorem getLsbD_zero_or_one (w : Word) : (w ||| 1#64).getLsbD 0 = true := by simp

/-- R142: a state whose `x` is odd is not all zero. -/
theorem genState_ne_zero_of_odd {x : Word} (h : x.getLsbD 0 = true) (y : Word) : (⟨x, y⟩ : GenState) ≠ ⟨0#64, 0#64⟩ := by
  apply genState_ne_zero
  rintro ⟨rfl, -⟩
  cases h

/-! ### A run of U64 commands, and one FILL, from the same state (R54, R148) -/

section
variable {k : Nat} (hk : instanceExists k = true)
include hk

/-- A step that takes a value command of a ready block. -/
theorem step_value {i : Instr} {s : State} {opa opb : Word} {rest : List HostEvent} {g : GenState} {c : BitVec 4}
    (hp : s.pending = .command k (encode i) opa opb :: rest) (hi : i.isValue = true) (hb : s.block k = ⟨some g, false, c⟩) :
    ∃ t, step s = .next t ∧ Took k { s with pending := rest } t ⟨some (valueState i ⟨k, opa, opb⟩ g), false, c⟩
      [valueResponse i ⟨k, opa, opb⟩ g] := by
  have hcur : (s.atHand k opa opb rest).current = ⟨some g, false, c⟩ := hb
  have h := answers_of_value (i := i) (s := s.atHand k opa opb rest) (g := g) ⟨by rw [hcur], by rw [hcur]⟩ hi
  rw [hcur, ← execWord_of_decode (decode_encode i)] at h
  exact step_took hp hk h

/-- `n` U64 commands return the first `n` words drawn, the newest response first, and leave the state `n` draws leave. -/
theorem run_u64 {n : Nat} {s : State} {g : GenState} {c : BitVec 4}
    (hp : s.pending = List.replicate n (.command k (encode .u64) 0#64 0#64)) (hb : s.block k = ⟨some g, false, c⟩) :
    ∃ t, run n s = .next t ∧ t.block k = ⟨some (iterate advance n g), false, c⟩ ∧
      t.responses = (wordsFrom advance n g).reverse.map (fun w => (k, Response.value w)) ++ s.responses := by
  induction n generalizing s g with
  | zero => exact ⟨s, rfl, hb, rfl⟩
  | succ n ih =>
    obtain ⟨t, ht, htook⟩ := step_value hk hp rfl hb
    obtain ⟨u, hu, hblock, hresp⟩ := ih htook.pending htook.block_self
    refine ⟨u, (run_succ_of_step ht n).trans hu, hblock, ?_⟩
    rw [hresp, htook.responses]
    simp [wordsFrom, valueResponse, valueState, drawsOf, iterate]

/-- One FILL returns the first `n` bytes of the words drawn, and leaves the state `ceil(n / 8)` draws leave. -/
theorem run_fill {n : Word} {s : State} {g : GenState} {c : BitVec 4} (hp : s.pending = [.command k (encode .fill) n 0#64])
    (hb : s.block k = ⟨some g, false, c⟩) :
    ∃ t, run 1 s = .next t ∧ t.block k = ⟨some (iterate advance ((n.toNat + 7) / 8) g), false, c⟩ ∧
      t.responses = (k, Response.stream
        (((wordsFrom advance ((n.toNat + 7) / 8) g).flatMap (fun w => leBytes w 8)).take n.toNat)) :: s.responses := by
  obtain ⟨t, ht, htook⟩ := step_value hk hp rfl hb
  refine ⟨t, run_succ_of_step ht 0, htook.block_self, ?_⟩
  rw [← fillBytes_bytes]
  exact htook.responses

end

/-- The bytes of the newest responses, read oldest first, are the bytes of the words they carry. -/
theorem flatMap_responses_eq {k : Nat} (ws : List Word) (old : List (Nat × Response)) :
    (((ws.reverse.map fun w => (k, Response.value w)) ++ old).take ws.length).reverse.flatMap
      (fun e => leBytes e.2.res0 8) = ws.flatMap (fun w => leBytes w 8) := by
  rw [List.take_left' (by simp), List.map_reverse, List.reverse_reverse, List.flatMap_map]
  rfl

end Sys2Proof.Machine

section
open Sys2Proof Sys2Proof.Machine

/-- Settles O49: both runs draw the same `ceil((8k + r) / 8)` words, and FILL's bytes are the first of theirs. -/
theorem fillStreamsTheWordsOfU64 : Obligations.FillStreamsTheWordsOfU64 := by
  intro s j k r g hj hf hx hr hlt words
  have hb : s.block j = ⟨some g, false, (s.block j).faultCode⟩ := by rw [← hf, ← hx]
  have hn : (BitVec.ofNat 64 (8 * k + r)).toNat = 8 * k + r := Nat.mod_eq_of_lt hlt
  have hwords : (8 * k + r + 7) / 8 = words := by
    unfold words
    split <;> omega
  obtain ⟨t, ht, hblock, hresp⟩ := run_u64 hj
    (s := { s with pending := List.replicate words (.command j (encode .u64) 0#64 0#64) }) rfl hb
  obtain ⟨t', ht', hblock', hresp'⟩ := run_fill hj
    (s := { s with pending := [.command j (encode .fill) (BitVec.ofNat 64 (8 * k + r)) 0#64] }) rfl hb
  rw [hn, hwords] at hblock' hresp'
  refine ⟨t, t', _, ht, ht', hblock'.trans hblock.symm, hresp', ?_⟩
  have hbytes := flatMap_responses_eq (k := j) (wordsFrom advance words g) s.responses
  rw [wordsFrom_length] at hbytes
  rw [hresp, ← hbytes]
  rfl

/-- Settles O46: the child's `x` is odd, so LOADSTATE constructs it. -/
theorem splitChildCanBeLoaded : Obligations.SplitChildCanBeLoaded := by
  intro s t g r hg ht hr
  obtain rfl := (executes_split hg).response_eq ht hr
  have hodd := getLsbD_zero_or_one (out g)
  refine ⟨hodd, fun s' hf hopa hopb => ?_⟩
  have hstate : s'.port.genState = ⟨out g ||| 1#64, out (advance g)⟩ := by rw [Port.genState, hopa, hopb]
  have hne : s'.port.genState ≠ ⟨0#64, 0#64⟩ := hstate.trans_ne (genState_ne_zero_of_odd hodd _)
  exact hstate ▸ executes_of_construct (execLoadstate_of_ne_zero hf hne)

/-- Settles O45: SPLIT answers as every value command does, with two draws. -/
theorem splitReturnsTheChild : Obligations.SplitReturnsTheChild := fun _ _ => executes_split

/-- Settles O48: FILL answers as every value command does, here with no draw and no byte. -/
theorem emptyFillIsANoOp : Obligations.EmptyFillIsANoOp := by
  intro s g hg h0
  have h := answers_of_value (i := .fill) hg rfl
  rw [valueState, valueResponse, h0] at h
  exact h

end

/-! ### Faults (spec/60_exceptions.md): the refusal of a faulted block, and the order of the checks -/

namespace Sys2Proof.Machine

/-! ### A faulted block (R168) -/

/-- R168: any word but RDSTATUS is refused at a faulted block, whether it decodes or not. -/
theorem execWord_of_faulted {w : CmdWord} {s : State} (hw : decode w ≠ .ok .rdstatus) (hf : s.current.fault = true) :
    execWord w s = .next s.refuse := by
  obtain ⟨i, hd, h⟩ | ⟨-, -, -, h⟩ | ⟨-, -, hok, -⟩ := execWord_cases w s
  · have hi : i ≠ .rdstatus := by
      rintro rfl
      exact hw hd
    rw [h, exec_of_faulted hi hf]
  · exact h
  · exact absurd (hf.symm.trans hok) (by decide)

theorem Block.recording_of_faulted {b : Block} (c : FaultKind) (h : b.fault = true) : b.recording c = b := if_pos h

/-- Of the values a step can write, a reset's alone has `FAULT` clear where it was set. -/
theorem Written.reset_of_fault_cleared {s t : State} {k : Nat} {b : Block} (hw : Written s t k b)
    (hf : (s.block k).fault = true) (hb : b.fault = false) : s.pending.head? = some (.reset k) := by
  cases hw with
  | reset he _ => exact he
  | fault c _ h _ =>
    rw [h, Block.recording_of_faulted c hf] at hb
    exact absurd (hf.symm.trans hb) (by decide)
  | construct _ _ _ g _ _ _ h | draws _ g _ h =>
    rw [h, Block.holding_fault] at hb
    exact absurd (hf.symm.trans hb) (by decide)

/-! ### The order of the checks (R164) -/

theorem Port.genState_eq_zero_iff (p : Port) : p.genState = ⟨0#64, 0#64⟩ ↔ p.opa = 0#64 ∧ p.opb = 0#64 := by
  rw [genState, GenState.mk.injEq]

/-- R163: every value command that runs reports OK. -/
theorem valueResponse_status (i : Instr) (p : Port) (g : GenState) : (valueResponse i p g).status = .ok := by
  cases i <;> rfl

/-- The status of a word by the first check of R164 that applies. -/
def checkedStatus (w : CmdWord) (s : State) : Status :=
  if decode w = .ok .rdstatus then .ok
  else if s.current.fault then .faulted
  else match decode w with
    | .error _ => .fault .illegal
    | .ok i =>
      if i.isValue ∧ s.current.xy = none then .fault .unseeded
      else if i = .loadstate ∧ s.port.opa = 0#64 ∧ s.port.opb = 0#64 then .fault .zeroState
      else .ok

section
variable {w : CmdWord} {s : State}

theorem checkedStatus_of_rdstatus (hw : decode w = .ok .rdstatus) : checkedStatus w s = .ok := if_pos hw

theorem checkedStatus_of_faulted (hw : decode w ≠ .ok .rdstatus) (hf : s.current.fault = true) :
    checkedStatus w s = .faulted := (if_neg hw).trans (if_pos hf)

theorem checkedStatus_of_not_decode (hf : s.current.fault = false) (hw : ∀ i, decode w ≠ .ok i) :
    checkedStatus w s = .fault .illegal := by
  cases hd : decode w with
  | ok i => exact absurd hd (hw i)
  | error e => simp [checkedStatus, hd, hf]

theorem checkedStatus_of_unseeded {i : Instr} (hf : s.current.fault = false) (hd : decode w = .ok i)
    (hi : i.isValue = true) (hx : s.current.xy = none) : checkedStatus w s = .fault .unseeded := by
  have hne : i ≠ .rdstatus := by
    rintro rfl
    cases hi
  simp [checkedStatus, hd, hf, hi, hx, hne]

theorem checkedStatus_of_zeroState (hf : s.current.fault = false) (hd : decode w = .ok .loadstate)
    (ha : s.port.opa = 0#64) (hb : s.port.opb = 0#64) : checkedStatus w s = .fault .zeroState := by
  simp [checkedStatus, hd, hf, ha, hb, Instr.isValue]

theorem checkedStatus_of_ok {i : Instr} (hf : s.current.fault = false) (hd : decode w = .ok i)
    (hx : i.isValue = true → s.current.xy ≠ none) (hz : i = .loadstate → ¬(s.port.opa = 0#64 ∧ s.port.opb = 0#64)) :
    checkedStatus w s = .ok := by
  have hunseeded : ¬(i.isValue = true ∧ s.current.xy = none) := fun h => hx h.1 h.2
  have hzero : ¬(i = .loadstate ∧ s.port.opa = 0#64 ∧ s.port.opb = 0#64) := fun h => hz h.1 h.2
  simp [checkedStatus, hd, hf, hunseeded, hzero]

end

/-- R164: a word completes with one response, whose status is that of the first check that applies. -/
theorem execWord_status (w : CmdWord) (s : State) :
    ∃ t r, execWord w s = .next t ∧ t.responses = (s.port.target, r) :: s.responses ∧ r.status = checkedStatus w s := by
  obtain ⟨i, hd, h⟩ | ⟨e, hd, hf, h⟩ | ⟨e, hd, hf, h⟩ := execWord_cases w s
  · rw [h]
    cases exec_cases i s with
    | status hi h =>
      subst hi
      exact ⟨_, _, h, rfl, (checkedStatus_of_rdstatus hd).symm⟩
    | refused hi hf h => exact ⟨_, _, h, rfl, (checkedStatus_of_faulted (by simp [hd, hi]) hf).symm⟩
    | unseeded hi hf hx h => exact ⟨_, _, h, rfl, (checkedStatus_of_unseeded hf hd hi hx).symm⟩
    | zeroState hi hf hz h =>
      subst hi
      obtain ⟨ha, hb⟩ := s.port.genState_eq_zero_iff.1 hz
      exact ⟨_, _, h, rfl, (checkedStatus_of_zeroState hf hd ha hb).symm⟩
    | construct hf g hg hi h =>
      refine ⟨_, _, h, rfl, (checkedStatus_of_ok hf hd (fun hv => ?_) (fun hl hz => ?_)).symm⟩
      · obtain ⟨rfl, -⟩ | ⟨rfl, -⟩ := hi <;> cases hv
      · obtain ⟨rfl, -⟩ | ⟨-, rfl⟩ := hi
        · cases hl
        · exact hg (s.port.genState_eq_zero_iff.2 hz)
    | value hi g hr h =>
      refine ⟨_, _, h, rfl, (valueResponse_status _ _ _).trans (checkedStatus_of_ok hr.1 hd (fun _ => ?_) ?_).symm⟩
      · simp [hr.2]
      · rintro rfl
        cases hi
  · exact ⟨_, _, h, rfl, (checkedStatus_of_faulted (by simp [hd]) hf).symm⟩
  · exact ⟨_, _, h, rfl, (checkedStatus_of_not_decode hf (by simp [hd])).symm⟩

/-! ### An event for an absent block -/

theorem takeEvent_of_absent {e : HostEvent} (he : instanceExists e.target = false) (s : State) :
    takeEvent e s = .fault (.noSuchInstance e.target) := by
  have hne : ¬ instanceExists e.target = true := by simp [he]
  cases e with
  | command k w opa opb => exact if_neg hne
  | reset k => exact if_neg hne

end Sys2Proof.Machine

section
open Sys2Proof Sys2Proof.Machine

/-- Settles O53: the status is that of the first check that applies, and each clause says which one that is. -/
theorem orderOfChecks : Obligations.OrderOfChecks := by
  intro w s
  obtain ⟨t, r, ht, hr, hstatus⟩ := execWord_status w s
  refine ⟨t, r, ht, hr, ?_⟩
  rw [hstatus]
  exact ⟨checkedStatus_of_rdstatus, checkedStatus_of_faulted, checkedStatus_of_not_decode,
    fun _ => checkedStatus_of_unseeded, checkedStatus_of_zeroState, fun _ => checkedStatus_of_ok⟩

/-- Settles O52: a word is refused with its block as it was, and of the values a step can write a reset's alone is unfaulted. -/
theorem faultedInstanceRefuses : Obligations.FaultedInstanceRefuses := by
  refine ⟨fun w s hw hf => ?_, fun s t k ht hf hclear => ?_⟩
  · rw [execWord_of_faulted hw hf]
    exact answers_respond s Response.refused
  · obtain hb | hwritten := step_block ht k
    · rw [hb] at hclear
      exact absurd (hf.symm.trans hclear) (by decide)
    · exact hwritten.reset_of_fault_cleared hf hclear

/-- Settles O51: an unseeded value command raises the fault in place of its run. -/
theorem unseededValueCommandFaults : Obligations.UnseededValueCommandFaults := by
  intro i s hi hf hx
  rw [exec_value i s hi, valueCommand_of_unseeded hf hx]
  exact raise_faults hf .unseeded

/-- Settles O56: an event is taken only at a block the platform holds, and with no event there is none to take. -/
theorem idleAndAbsentInstance : Obligations.IdleAndAbsentInstance := by
  refine ⟨fun s hp => by rw [step, hp], fun s e rest hp he => ?_⟩
  rw [step_of_pending hp]
  exact takeEvent_of_absent he _

end

/-! ### Reset and hazards (spec/70_reset_and_hazards.md): a reset at its block, and the answer of every command -/

namespace Sys2Proof.Machine

theorem step_of_reset {s : State} {k : Nat} {rest : List HostEvent} (hp : s.pending = .reset k :: rest)
    (hk : instanceExists k = true) : step s = .next ({ s with pending := rest }.resetBlock k) :=
  (step_of_pending hp).trans (if_pos hk)

end Sys2Proof.Machine

section
open Sys2Proof Sys2Proof.Machine

/-- Settles O54: every command answers in every state, with a value for its block and a response. -/
theorem everyCommandAnswers : Obligations.EveryCommandAnswers := by
  intro i s
  obtain ⟨f, hf⟩ := exec_actsLocally i
  exact ⟨_, _, hf s⟩

/-- Settles O6: the event is popped, and a reset writes the reset value to the block it names and returns nothing. -/
theorem resetEventRestoresOneInstance : Obligations.ResetEventRestoresOneInstance := by
  intro s k rest hp hk
  have htook := resetBlock_took { s with pending := rest } k
  exact ⟨_, step_of_reset hp hk, htook.block_self, htook.block_of_ne, htook.responses, rfl, htook.pending⟩

end
